-- ==== Sys2Proof/Word.lean ====
section
/-! DEFINITION. The word types of the ToneGenerator (spec 00_scope.md R5, R7, R8; 30_encoding.md R61). -/

namespace Sys2Proof

/-- A u8 or i8 pattern: `DI`, a table index, a table entry, a byte of a serialised command. -/
abbrev Byte := BitVec 8

/-- A u32 or i32 pattern: `PHI`, `sampleIn`, `sample_out`, a tone sample, the fields `a` and `b`. -/
abbrev Word := BitVec 32

/-- The bit pattern of an IEEE 754 binary64 datum (R8, R146): `PHF`, `DF`, `WT`, `WI`, the field `w`. -/
abbrev F64 := BitVec 64

/-- The 136-bit command word `cmd[135:0]` (R60, R61). -/
abbrev Command := BitVec 136

end Sys2Proof
end

