-- ==== Sys2Proof/Config.lean ====
section
/-! DEFINITION. What the machine leaves open: the sine table, the sine function and the free values.
Every constant here has no body, so no proof can learn a value of it. -/

namespace Sys2Proof

/-- The places where a step may take an unspecified value (R9, R148, R181). Two draws of one step stand
at different sites, and two steps have different numbers, so no two draws are the same one (R184). -/
inductive DrawSite where
  /-- `DI` of `CFG.SD` and `CFG.SQ` at rate 0 (R97, X1). -/
  | deltaInteger
  /-- `DF` of `CFG.SC` at rate 0 (R97, X2). -/
  | deltaFloat
  /-- The NaN pattern of the product in `CFG.SC` (R148). -/
  | deltaProduct
  /-- The NaN pattern of the quotient in `CFG.SC` (R148). -/
  | deltaQuotient
  /-- The NaN pattern of `WI` (R148). -/
  | inputWeight
  /-- The NaN pattern of `PHF` (R148). -/
  | phaseFloat
  /-- The NaN pattern of `fsin(PHF) · 2147483647.0` (R148). -/
  | toneProduct
  /-- The SC tone sample out of range (R114, X5). -/
  | tone
  /-- The NaN pattern of the input product of the mix (R148). -/
  | inputProduct
  /-- The NaN pattern of the tone product of the mix (R148). -/
  | toneShare
  /-- The NaN pattern of the sum of the mix (R148). -/
  | mixSum
  /-- `sample_out` out of range (R116, X4). -/
  | sampleOut
  deriving DecidableEq, Repr

namespace Config

/-- `SINE_TABLE` (R41): the 256 entries of the external sine table, nothing assumed of them.
DESIGN CHOICE of form, log entry 1: an uninterpreted constant stands for the model's argument. -/
opaque sineTable : Byte → Byte

/-- The sine unit's raw answer (R160). `Machine.fsin` reads it and keeps the named properties;
DESIGN CHOICE of form, log entry 2. -/
opaque rawSin : F64 → F64

/-- `draw_u8()` (R9, R97). DESIGN CHOICE of form, log entry 3. -/
opaque drawU8 : DrawSite → Nat → Byte

/-- `draw_i32()` (R9, R158). DESIGN CHOICE of form, log entry 3. -/
opaque drawI32 : DrawSite → Nat → Word

/-- `draw_f64()` (R9, R97). DESIGN CHOICE of form, log entry 3. -/
opaque drawF64 : DrawSite → Nat → F64

/-- The bits from which the pattern of a NaN result comes (R148). DESIGN CHOICE of form, log entry 4. -/
opaque drawNaN : DrawSite → Nat → F64

end Config

end Sys2Proof
end

