-- ==== Sys2Proof/Machine/Binary64.lean ====
section
/-! DEFINITION. IEEE 754 binary64 as spec 42_numerics.md gives it (R146 to R160). A finite datum is a whole
number of quanta of 2^-1074, so every operation computes its exact result in integers and rounds once. -/

namespace Sys2Proof.Machine

/-! ### The format (R146) -/

/-- Bit 63. -/
def signBit (x : F64) : Bool := x.getLsbD 63

/-- The biased exponent, bits 62..52. -/
def expField (x : F64) : Nat := (x.extractLsb' 52 11).toNat

/-- The fraction, bits 51..0. -/
def fracField (x : F64) : Nat := (x.extractLsb' 0 52).toNat

def isNaN (x : F64) : Bool := expField x == 2047 && fracField x != 0

def isInf (x : F64) : Bool := expField x == 2047 && fracField x == 0

def isFinite (x : F64) : Bool := expField x != 2047

def isZero (x : F64) : Bool := expField x == 0 && fracField x == 0

/-- How many quanta of 2^-1074 make 1. -/
def quantaPerOne : Nat := 2 ^ 1074

/-- The magnitude of a finite datum in quanta of 2^-1074: `f` when `e` = 0, else
`(2^52 + f) · 2^(e-1)` (R146 times 2^1074). -/
def magnitude (x : F64) : Nat :=
  if expField x = 0 then fracField x else (2 ^ 52 + fracField x) * 2 ^ (expField x - 1)

/-- The value of a finite datum in quanta of 2^-1074 (R146). -/
def quanta (x : F64) : Int := if signBit x then -(magnitude x : Int) else magnitude x

/-- A datum from its sign and the number that its low 63 bits hold. -/
def packF64 (negative : Bool) (low : Nat) : F64 :=
  BitVec.ofNat 64 ((if negative then 2 ^ 63 else 0) + low)

/-- What the low 63 bits of an infinity hold (R146). -/
def infLow : Nat := 2047 * 2 ^ 52

/-- The infinity of a sign. -/
def infinity (negative : Bool) : F64 := packF64 negative infLow

/-- The NaN that free bits give: the bits themselves where they are a NaN, else the same bits with the
exponent and the top fraction bit set. Every NaN pattern is the NaN of some bits (R148; log entry 4). -/
def nanOf (free : F64) : F64 := if isNaN free then free else free ||| 0x7FF8000000000000

/-! ### Rounding (R147) -/

/-- `n / d` rounded to the nearest integer, a tie to the even one; `d > 0`. -/
def roundHalfEven (n d : Nat) : Nat :=
  if 2 * (n % d) < d then n / d
  else if d < 2 * (n % d) then n / d + 1
  else n / d + (n / d) % 2

/-- The low 63 bits of `RN(r)` for the real `r = (n / d) · 2^-1074 ≥ 0` (R147). With `2^k` quanta the
spacing of binary64 at `r`, the significand is `r` rounded to that spacing, and `k · 2^52` plus the
significand is the pattern (a carry out of the significand steps the exponent); from
`2^1024 - 2^970` on the pattern is that of infinity. -/
def roundLow (n d : Nat) : Nat :=
  let k := (n / d).log2 - 52
  min (k * 2 ^ 52 + roundHalfEven n (d * 2 ^ k)) infLow

/-! ### Constants (R159) -/

def onePointZero : F64 := 0x3FF0000000000000
def zeroPointZero : F64 := 0x0000000000000000
def twoPi : F64 := 0x401921FB54442D18
/-- `INT32_MAX` as a binary64 datum, exact. -/
def int32MaxF : F64 := 0x41DFFFFFFFC00000

/-! ### Operations. `free` is where the pattern of a NaN result comes from (R148). -/

/-- The sign bit flipped (R151). -/
def fneg (x : F64) : F64 := x ^^^ 0x8000000000000000

/-- `fadd(x, y)` (R150). -/
def fadd (free x y : F64) : F64 :=
  if isNaN x || isNaN y then nanOf free
  else if isInf x then (if isInf y && signBit x != signBit y then nanOf free else x)
  else if isInf y then y
  else
    let sum := quanta x + quanta y
    if sum = 0 then packF64 (signBit x && signBit y) 0
    else packF64 (sum < 0) (roundLow sum.natAbs 1)

/-- `fsub(x, y) = fadd(x, neg(y))` (R151). -/
def fsub (free x y : F64) : F64 := fadd free x (fneg y)

/-- `fmul(x, y)` (R152). -/
def fmul (free x y : F64) : F64 :=
  let negative := signBit x != signBit y
  if isNaN x || isNaN y then nanOf free
  else if isInf x || isInf y then (if isZero x || isZero y then nanOf free else infinity negative)
  else packF64 negative (roundLow (magnitude x * magnitude y) quantaPerOne)

/-- `fdiv(x, y)` (R153). The sign of `inf / finite` and of `finite / inf`, which R153 leaves unsaid, is
the exclusive-or as in its other cases: PRESUMED (IEEE 754), log entry 14; no instruction reaches it. -/
def fdiv (free x y : F64) : F64 :=
  let negative := signBit x != signBit y
  if isNaN x || isNaN y then nanOf free
  else if isInf x then (if isInf y then nanOf free else infinity negative)
  else if isInf y then packF64 negative 0
  else if isZero y then (if isZero x then nanOf free else infinity negative)
  else packF64 negative (roundLow (magnitude x * quantaPerOne) (magnitude y))

/-- `feq(x, y)`, IEEE equality (R155). -/
def feq (x y : F64) : Bool :=
  !isNaN x && !isNaN y && (x == y || (isZero x && isZero y))

/-- The binary64 datum of an integer's value (R156, R157). -/
def ofInteger (z : Int) : F64 := packF64 (z < 0) (roundLow (z.natAbs * quantaPerOne) 1)

/-- `i2f(n)` for n in i32 (R156). -/
def i2f (n : Word) : F64 := ofInteger n.toInt

/-- `u2f(n)` for n in u32 (R157). -/
def u2f (n : Word) : F64 := ofInteger n.toNat

/-- Whether narrowing is in range: v finite and -2147483649 < v < 2147483648 (R158). -/
def narrowable (v : F64) : Bool :=
  isFinite v && decide (-2147483649 * (quantaPerOne : Int) < quanta v)
    && decide (quanta v < 2147483648 * (quantaPerOne : Int))

/-- `f2i(v)`: truncation toward zero, and outside the range the free value `draw` (R158). -/
def f2i (draw : Word) (v : F64) : Word :=
  if narrowable v then BitVec.ofInt 32 ((quanta v).tdiv quantaPerOne) else draw

/-! ### The sine (R160) -/

/-- A pattern whose magnitude is at most 1.0 is kept; any other becomes 1.0 with its sign. -/
def clampToUnit (v : F64) : F64 :=
  if v.toNat % 2 ^ 63 ≤ 0x3FF0000000000000 then v else packF64 (signBit v) 0x3FF0000000000000

/-- What a raw answer becomes so that the named properties hold: a NaN for an infinity or a NaN (SIN-NAN),
the operand itself for a zero (SIN-ZERO), a value in [-1, 1] otherwise (SIN-RANGE). A raw answer
that has the properties is kept as it is. -/
def lawfulSin (raw : F64 → F64) (x : F64) : F64 :=
  if isFinite x then (if isZero x then x else clampToUnit (raw x)) else nanOf (raw x)

/-- `fsin` (R160): an unknown function of its operand alone (SIN-DET) with the properties SIN-RANGE,
SIN-ZERO and SIN-NAN and nothing else (log entry 2). -/
def fsin (x : F64) : F64 := lawfulSin Config.rawSin x

end Sys2Proof.Machine
end

