-- ==== Sys2Proof/Syntax.lean ====
section
/-! DEFINITION. The instruction set: the five commands of spec 30_encoding.md R62, and the closed set of
waveform kinds (10_state.md R28). -/

namespace Sys2Proof

/-- The waveform kinds (R28): "one of {sine-discrete, sine-continuous, square}". The code 3 is never held,
so it has no name here (log entry 12). -/
inductive Waveform where
  | sd   -- sine-discrete, code 0
  | sc   -- sine-continuous, code 1
  | sq   -- square, code 2
  deriving DecidableEq, Repr

/-- The five instructions, one per row of the opcode table, with the operands the decoder reads (R65). -/
inductive Instr where
  /-- `PROC sampleIn` (R110). -/
  | proc (sampleIn : Word)
  /-- `CFGL targetDelta, mixWeight` (R90). -/
  | cfgl (targetDelta : Word) (mixWeight : F64)
  /-- `CFG.SD frequency, mixWeight, sampleRate` (R91). -/
  | cfgSd (frequency : Word) (mixWeight : F64) (sampleRate : Word)
  /-- `CFG.SC frequency, mixWeight, sampleRate` (R92). -/
  | cfgSc (frequency : Word) (mixWeight : F64) (sampleRate : Word)
  /-- `CFG.SQ frequency, mixWeight, sampleRate` (R93). -/
  | cfgSq (frequency : Word) (mixWeight : F64) (sampleRate : Word)
  deriving DecidableEq, Repr

end Sys2Proof
end

