-- ==== Sys2Proof/WellFormed.lean ====
section
/-! DEFINITION. Well-formedness. No operand is validated (spec 30_encoding.md R65) and every operand carries
its width in its type, so every instruction is well formed. What can be ill formed is a serialised
command: its length (R61, R64) or its header byte (R69). -/

namespace Sys2Proof

/-- Every instruction is well formed: "all inputs accepted" (R65, R94, R110). -/
def Instr.wellFormed : Instr → Bool
  | .proc _ => true
  | .cfgl _ _ => true
  | .cfgSd _ _ _ => true
  | .cfgSc _ _ _ => true
  | .cfgSq _ _ _ => true

/-- The complete map of the header byte (R69): `0x00` to `0x0A` are instructions, the rest is reserved. -/
def headerLegal (h : Byte) : Bool := h.toNat ≤ 0x0A

/-- A serialised command is 17 bytes (R61, R64, R73) and begins with a legal header byte (R69). -/
def frameWellFormed (bytes : List Byte) : Bool :=
  bytes.length == 17 && (bytes.head?.map headerLegal).getD false

end Sys2Proof
end

