-- ==== Sys2Proof/Decode.lean ====
section
/-! DEFINITION. The decoder and the encoder of the 136-bit command word (spec 30_encoding.md R61 to R73),
its serialised form (R64), and the opcode table's rows of match and mask. -/

namespace Sys2Proof

/-- Why a word or a frame is no instruction (R70: exactly three cases for a word; R61 for a frame). -/
inductive DecodeReject where
  /-- `rsv` is not zero. -/
  | reservedBits
  /-- `op` is 3. -/
  | reservedOperation
  /-- `op` is 2 and `wf` is 3. -/
  | reservedWaveform
  /-- The frame is not 17 bytes (R61, R64, R73). -/
  | wrongLength
  deriving DecidableEq, Repr

/-! ### The fields of format C (R61) -/

def rsvField (c : Command) : BitVec 4 := c.extractLsb' 132 4
def opField (c : Command) : BitVec 2 := c.extractLsb' 130 2
def wfField (c : Command) : BitVec 2 := c.extractLsb' 128 2
def aField (c : Command) : Word := c.extractLsb' 96 32
def bField (c : Command) : Word := c.extractLsb' 64 32
def wField (c : Command) : F64 := c.extractLsb' 0 64

/-- The header byte `cmd[135:128]` (R61). -/
def headerByte (c : Command) : Byte := c.extractLsb' 128 8

/-- The decoder (R68), in the order of the spec's pseudocode. Ignored fields may hold any bits (R72). -/
def decode (c : Command) : Except DecodeReject Instr :=
  if rsvField c ≠ 0 then .error .reservedBits
  else if opField c = 0 then .ok (.proc (aField c))
  else if opField c = 1 then .ok (.cfgl (aField c) (wField c))
  else if opField c = 2 then
    if wfField c = 0 then .ok (.cfgSd (aField c) (wField c) (bField c))
    else if wfField c = 1 then .ok (.cfgSc (aField c) (wField c) (bField c))
    else if wfField c = 2 then .ok (.cfgSq (aField c) (wField c) (bField c))
    else .error .reservedWaveform
  else .error .reservedOperation

/-! ### The encoder (R62, R72: ignored fields are zero in the canonical encoding) -/

/-- A word of format C from its fields, most significant first (R61). -/
def packCommand (rsv : BitVec 4) (op wf : BitVec 2) (a b : Word) (w : F64) : Command :=
  rsv ++ op ++ wf ++ a ++ b ++ w

/-- The code of a waveform kind in the field `wf` and in `KIND` (R28, R61). -/
def Waveform.code : Waveform → BitVec 2
  | .sd => 0
  | .sc => 1
  | .sq => 2

/-- The canonical encoding of an instruction (R62, R72). -/
def encode : Instr → Command
  | .proc sampleIn => packCommand 0 0 0 sampleIn 0 0
  | .cfgl targetDelta mixWeight => packCommand 0 1 0 targetDelta 0 mixWeight
  | .cfgSd frequency mixWeight sampleRate => packCommand 0 2 Waveform.sd.code frequency sampleRate mixWeight
  | .cfgSc frequency mixWeight sampleRate => packCommand 0 2 Waveform.sc.code frequency sampleRate mixWeight
  | .cfgSq frequency mixWeight sampleRate => packCommand 0 2 Waveform.sq.code frequency sampleRate mixWeight

/-! ### Serialised form (R64): most significant byte first -/

/-- The `n` low bytes of a number, most significant first. -/
def bytesOfNat : Nat → Nat → List Byte
  | 0, _ => []
  | n + 1, v => BitVec.ofNat 8 (v / 256 ^ n) :: bytesOfNat n v

/-- The number that bytes spell, most significant first. -/
def natOfBytes (bytes : List Byte) : Nat := bytes.foldl (fun acc b => acc * 256 + b.toNat) 0

/-- The 17 bytes of a command word in transmission order (R64). -/
def commandBytes (c : Command) : List Byte := bytesOfNat 17 c.toNat

/-- The 4 bytes of `sample_out` in transmission order (R64). -/
def sampleBytes (v : Word) : List Byte := bytesOfNat 4 v.toNat

/-- The decoder on a serialised command: 17 bytes, no other length exists (R61, R64, R73). -/
def decodeFrame (bytes : List Byte) : Except DecodeReject Instr :=
  if bytes.length = 17 then decode (BitVec.ofNat 136 (natOfBytes bytes)) else .error .wrongLength

/-! ### The opcode table (R68) -/

/-- One row of spec/opcode_table.json: a word `c` selects the row when `c AND mask = pattern` (R68). -/
structure OpcodeRow where
  mnemonic : String
  pattern : Command
  mask : Command
  deriving DecidableEq, Repr

/-- The rows of spec/opcode_table.json. -/
def opcodeTable : List OpcodeRow :=
  [⟨"PROC",   0x0000000000000000000000000000000000, 0xFC00000000000000000000000000000000⟩,
   ⟨"CFGL",   0x0400000000000000000000000000000000, 0xFC00000000000000000000000000000000⟩,
   ⟨"CFG.SD", 0x0800000000000000000000000000000000, 0xFF00000000000000000000000000000000⟩,
   ⟨"CFG.SC", 0x0900000000000000000000000000000000, 0xFF00000000000000000000000000000000⟩,
   ⟨"CFG.SQ", 0x0A00000000000000000000000000000000, 0xFF00000000000000000000000000000000⟩]

/-- Whether a word selects a row (R68). -/
def OpcodeRow.selects (r : OpcodeRow) (c : Command) : Bool := c &&& r.mask == r.pattern

/-- The mnemonic of an instruction (R62). -/
def Instr.mnemonic : Instr → String
  | .proc _ => "PROC"
  | .cfgl _ _ => "CFGL"
  | .cfgSd _ _ _ => "CFG.SD"
  | .cfgSc _ _ _ => "CFG.SC"
  | .cfgSq _ _ _ => "CFG.SQ"

/-- The decoder as the host asks for it: the `nbits` bits of `w`, every higher bit zero, laid out as the
17 bytes of the serialised word (R64) and decoded. -/
def decodeTableWord (nbits w : Nat) : Option Instr :=
  (decodeFrame (commandBytes (BitVec.ofNat 136 (w % 2 ^ nbits)))).toOption

end Sys2Proof
end

