-- ==== Sys2Proof/Machine/State.lean ====
section
/-! DEFINITION. The machine's state as plain data: the seven registers of spec 10_state.md R20, the ports of
30_encoding.md R60, and the counter of draws. -/

namespace Sys2Proof.Machine

/-- One transaction of the host: the level of the reset input and the command word presented beside it, if
any (R60(a), R60(b)). Both at once is the coincidence of R211. -/
structure Transaction where
  /-- The reset input `rst`. -/
  rst : Bool
  /-- The word on the command port, if the host presents one. -/
  cmd : Option Command
  deriving DecidableEq, Repr

/-- The architectural state (R20) and the host's side of the ports. -/
structure State where
  /-- `PHI`, `phase_integer` (R21). -/
  phi : Word
  /-- `PHF`, `phase_float`, radians (R22). -/
  phf : F64
  /-- `DI`, `delta_integer` (R24). -/
  di : Byte
  /-- `DF`, `delta_float`, radians per sample (R25). -/
  df : F64
  /-- `WT`, `tone_mix_weight` (R26). -/
  wt : F64
  /-- `WI`, `input_mix_weight` (R27). -/
  wi : F64
  /-- `KIND`, `waveform_kind` (R28). -/
  kind : Waveform
  /-- Whether a reset has been applied yet (R212). The model's own; log entry 9. -/
  wasReset : Bool
  /-- What the host has still to present, the next transaction first (R30, R60). Log entry 5. -/
  pending : List Transaction
  /-- What the response port has returned, the first word first (R10, R60(c)). Log entry 6. -/
  responses : List Word
  /-- The indices presented on the table port, the first one first (R44, R56). Log entry 7. -/
  tableReads : List Byte
  /-- How many transactions have been taken: it numbers the draws (R9). The model's own; log entry 3. -/
  draws : Nat
  deriving DecidableEq, Repr

/-- The faults of the block: there are none, "this unit is designed to never fail at runtime" (R180), so
nothing raises one. Safe: no claim rests on a fault. -/
inductive Fault where
  deriving DecidableEq, Repr

/-- Why a step has no meaning. -/
inductive Refusal where
  /-- Raised by `exec` for an instruction whose meaning is not written; no arm answers it. Safe. -/
  | notModelled (mnemonic : String)
  /-- Raised by `step` for a word that decodes to `INVALID`: a model refuses it (R71, R182 row X9).
  Safe: the block goes on where the model stops (log entry 10). -/
  | invalidCommand (why : DecodeReject)
  /-- Raised by `step` for a command presented before any reset (R212). Safe (log entry 9). -/
  | beforeReset
  deriving DecidableEq, Repr

/-- The machine right after reset (R34, R210): the seven registers as R34 gives them, nothing pending,
nothing returned, no draw taken. -/
def State.reset : State where
  phi := 0x00000000
  phf := 0x0000000000000000
  di := 0x00
  df := 0x0000000000000000
  wt := 0x0000000000000000
  wi := 0x3FF0000000000000
  kind := .sd
  wasReset := true
  pending := []
  responses := []
  tableReads := []
  draws := 0

end Sys2Proof.Machine
end

