-- ==== Sys2Proof/Machine/Flags.lean ====
section
/-! DEFINITION. The block has no flags (spec 10_state.md R31). Its only conditions are the two tests that a step
makes on registers (41_process.md R118, 42_numerics.md R144, R155). -/

namespace Sys2Proof.Machine

/-- The bypass test `DI = 0 and feq(DF, 0.0)`, on both deltas whatever the kind (R111, R117). -/
def State.bypass (s : State) : Bool := s.di == 0 && feq s.df zeroPointZero

/-- The square wave's level test `PHI < 2^31`, that is `PHI[31] = 0` (R115, R144). -/
def State.lowHalf (s : State) : Bool := decide (s.phi.toNat < 2 ^ 31)

end Sys2Proof.Machine
end

