-- ==== Sys2Proof/Machine/Operands.lean ====
section
/-! DEFINITION. What the instructions compute from their operands alone: field extraction, scaling and the two
deltas (spec 30_encoding.md R65, R66; 40_configure.md R92, R96, R97; 42_numerics.md R140 to R143). -/

namespace Sys2Proof.Machine

/-- `TABLE_LEN` (R42). -/
def tableLen : Nat := 256

/-- `INT32_MAX` (R7). -/
def int32Max : Word := 0x7FFFFFFF

/-- `INT32_MIN` (R7). -/
def int32Min : Word := 0x80000000

/-- Bits 31..24: the delta of `CFGL` (R66) and the table index in `PHI` (R113, R141). -/
def topByte (v : Word) : Byte := v.extractLsb' 24 8

/-- Phase addition modulo 2^32 (R140). -/
def phaseAdd (phase : Word) (delta : Byte) : Word := phase + delta.setWidth 32

/-- `amp × 2^24`, the amplitude sign-extended; it always fits (R142). -/
def scaleAmplitude (entry : Byte) : Word := BitVec.ofInt 32 (entry.toInt * 2 ^ 24)

/-- `idelta(frequency, sampleRate)` for a rate above 0: product and quotient unbounded, the quotient
rounded down, the result reduced to 8 bits (R96, R143). -/
def idelta (frequency sampleRate : Word) : Byte :=
  BitVec.ofNat 8 (frequency.toNat * tableLen / sampleRate.toNat)

/-- The integer delta of `CFG.SD` and `CFG.SQ`; at rate 0 it is the free value `draw` (R91, R93, R97). -/
def integerDelta (draw : Byte) (frequency sampleRate : Word) : Byte :=
  if sampleRate = 0 then draw else idelta frequency sampleRate

/-- The floating delta of `CFG.SC`, `fdiv(fmul(TWO_PI, u2f(frequency)), u2f(sampleRate))`; at rate 0 it is
the free value `draw` (R92, R97). -/
def floatDelta (draw freeProduct freeQuotient : F64) (frequency sampleRate : Word) : F64 :=
  if sampleRate = 0 then draw
  else fdiv freeQuotient (fmul freeProduct twoPi (u2f frequency)) (u2f sampleRate)

end Sys2Proof.Machine
end

