-- ==== Sys2Proof/Machine/Ops.lean ====
section
/-! DEFINITION. The named operations over the registers, the table and the ports. The block takes no exception
(spec 60_exceptions.md R180, R185, R186), so there is no operation for taking one. -/

namespace Sys2Proof.Machine

/-! ### Draws (R9) -/

def State.drawU8 (s : State) (site : DrawSite) : Byte := Config.drawU8 site s.draws
def State.drawI32 (s : State) (site : DrawSite) : Word := Config.drawI32 site s.draws
def State.drawF64 (s : State) (site : DrawSite) : F64 := Config.drawF64 site s.draws
def State.drawNaN (s : State) (site : DrawSite) : F64 := Config.drawNaN site s.draws

/-! ### The table (R43, R56) -/

/-- `MemRead(idx, 1)`: the entry at an index; every index is valid (R43). -/
def memRead (idx : Byte) : Byte := Config.sineTable idx

/-- The table port sees an index (R56). -/
def State.presentIndex (s : State) (idx : Byte) : State :=
  { s with tableReads := s.tableReads ++ [idx] }

/-! ### Phases and the response port -/

/-- `PHI <- (PHI + zext_32(DI)) mod 2^32` (R21, R140). -/
def State.advancePhi (s : State) : State := { s with phi := phaseAdd s.phi s.di }

/-- `PHF <- fadd(PHF, DF)`, never wrapped (R22, R114). -/
def State.advancePhf (s : State) : State :=
  { s with phf := fadd (s.drawNaN .phaseFloat) s.phf s.df }

/-- The response port returns one word (R60(c)). -/
def State.respond (s : State) (v : Word) : State := { s with responses := s.responses ++ [v] }

/-! ### Configuration registers -/

/-- What every configure writes: `WT <- w`, `WI <- fsub(1.0, w)`, `KIND <- kind` (R94). -/
def State.setMix (s : State) (kind : Waveform) (w : F64) : State :=
  { s with wt := w, wi := fsub (s.drawNaN .inputWeight) onePointZero w, kind := kind }

def State.setDi (s : State) (d : Byte) : State := { s with di := d }
def State.setDf (s : State) (d : F64) : State := { s with df := d }

/-! ### The host's transactions -/

/-- The `rst` event: all seven registers take the values of R34, nothing is read or returned (R210). -/
def State.applyReset (s : State) : State :=
  { s with
    phi := State.reset.phi, phf := State.reset.phf, di := State.reset.di, df := State.reset.df,
    wt := State.reset.wt, wi := State.reset.wi, kind := State.reset.kind, wasReset := true }

/-- One transaction leaves the queue, and the draws of its command are new ones (R9, R60). -/
def State.take (s : State) (rest : List Transaction) : State :=
  { s with pending := rest, draws := s.draws + 1 }

/-- The host presents a transaction before all others. -/
def State.present (s : State) (t : Transaction) : State := { s with pending := t :: s.pending }

end Sys2Proof.Machine
end

