-- ==== Sys2Proof/Machine/Configure.lean ====
section
/-! DEFINITION. The configure instructions `CFGL`, `CFG.SD`, `CFG.SC`, `CFG.SQ` (spec 40_configure.md). None
validates an operand, none writes a phase, and the other delta keeps its value (R94, R95). -/

namespace Sys2Proof.Machine

/-- `CFGL targetDelta, mixWeight` (R90). -/
def execCfgl (targetDelta : Word) (mixWeight : F64) (s : State) : Host.Outcome State Fault Refusal :=
  .next ((s.setMix .sd mixWeight).setDi (topByte targetDelta))

/-- `CFG.SD frequency, mixWeight, sampleRate` (R91, R97). -/
def execCfgSd (frequency : Word) (mixWeight : F64) (sampleRate : Word) (s : State) :
    Host.Outcome State Fault Refusal :=
  .next ((s.setMix .sd mixWeight).setDi (integerDelta (s.drawU8 .deltaInteger) frequency sampleRate))

/-- `CFG.SC frequency, mixWeight, sampleRate` (R92, R97). -/
def execCfgSc (frequency : Word) (mixWeight : F64) (sampleRate : Word) (s : State) :
    Host.Outcome State Fault Refusal :=
  .next ((s.setMix .sc mixWeight).setDf
    (floatDelta (s.drawF64 .deltaFloat) (s.drawNaN .deltaProduct) (s.drawNaN .deltaQuotient)
      frequency sampleRate))

/-- `CFG.SQ frequency, mixWeight, sampleRate` (R93, R97). -/
def execCfgSq (frequency : Word) (mixWeight : F64) (sampleRate : Word) (s : State) :
    Host.Outcome State Fault Refusal :=
  .next ((s.setMix .sq mixWeight).setDi (integerDelta (s.drawU8 .deltaInteger) frequency sampleRate))

end Sys2Proof.Machine
end

