-- ==== Sys2Proof/Machine/Process.lean ====
section
/-! DEFINITION. The process instruction `PROC`: bypass, waveform dispatch, synthesis, mix (spec 41_process.md). -/

namespace Sys2Proof.Machine

/-! ### Synthesis: the tone sample of the state's phase, and the state after the phase's advance -/

/-- Sine-discrete (R113): the entry at `PHI[31:24]`, scaled by 2^24; then `PHI` advances. -/
def State.synthSd (s : State) : Word × State :=
  let idx := topByte s.phi
  (scaleAmplitude (memRead idx), (s.presentIndex idx).advancePhi)

/-- Sine-continuous (R114): `f2i(fmul(fsin(PHF), 2147483647.0))`; then `PHF` advances. -/
def State.synthSc (s : State) : Word × State :=
  (f2i (s.drawI32 .tone) (fmul (s.drawNaN .toneProduct) (fsin s.phf) int32MaxF), s.advancePhf)

/-- Square (R115): `INT32_MAX` below the midpoint, `INT32_MIN` otherwise; then `PHI` advances. -/
def State.synthSq (s : State) : Word × State :=
  (if s.lowHalf then int32Max else int32Min, s.advancePhi)

/-- Exactly one waveform, chosen by `KIND` alone (R112). -/
def State.synthesize (s : State) : Word × State :=
  match s.kind with
  | .sd => s.synthSd
  | .sc => s.synthSc
  | .sq => s.synthSq

/-! ### The mix (R116) -/

/-- `fadd(fmul(i2f(sampleIn), WI), fmul(i2f(tone), WT))`: two rounded products, one rounded sum. -/
def State.mixSum (s : State) (tone sampleIn : Word) : F64 :=
  fadd (s.drawNaN .mixSum) (fmul (s.drawNaN .inputProduct) (i2f sampleIn) s.wi)
    (fmul (s.drawNaN .toneShare) (i2f tone) s.wt)

/-- The weighted sum narrowed by truncation; out of range a draw (R116, R158). -/
def State.mix (s : State) (tone sampleIn : Word) : Word :=
  f2i (s.drawI32 .sampleOut) (s.mixSum tone sampleIn)

/-- One sample (R110): the bypass test first, else synthesis and mix. The phase advances whether or not
the narrowing is in range (R119). -/
def State.process (s : State) (sampleIn : Word) : State :=
  if s.bypass then s.respond sampleIn
  else s.synthesize.2.respond (s.mix s.synthesize.1 sampleIn)

/-- `PROC sampleIn` (R110). -/
def execProc (sampleIn : Word) (s : State) : Host.Outcome State Fault Refusal :=
  .next (s.process sampleIn)

end Sys2Proof.Machine
end

