-- ==== Sys2Proof/Machine/Dispatch.lean ====
section
/-! DEFINITION. One arm per instruction of spec/opcode_table.json. -/

namespace Sys2Proof.Machine

def exec (i : Instr) (s : State) : Host.Outcome State Fault Refusal :=
  match i with
  | .proc sampleIn => Sys2Proof.Machine.execProc sampleIn s
  | .cfgl targetDelta mixWeight => Sys2Proof.Machine.execCfgl targetDelta mixWeight s
  | .cfgSd frequency mixWeight sampleRate => Sys2Proof.Machine.execCfgSd frequency mixWeight sampleRate s
  | .cfgSc frequency mixWeight sampleRate => Sys2Proof.Machine.execCfgSc frequency mixWeight sampleRate s
  | .cfgSq frequency mixWeight sampleRate => Sys2Proof.Machine.execCfgSq frequency mixWeight sampleRate s

end Sys2Proof.Machine
end

