-- ==== Sys2Proof/Machine/Port.lean ====
section
/-! DEFINITION. The command port and the reset input (spec 30_encoding.md R60, 70_reset_and_hazards.md R211, R212). -/

namespace Sys2Proof.Machine

/-- One command word on the command port: refused before any reset (R212) and where it decodes to `INVALID`
(R71, R182 row X9), otherwise executed. -/
def runCommand (c : Command) (s : State) : Host.Outcome State Fault Refusal :=
  if s.wasReset then
    match decode c with
    | .ok i => exec i s
    | .error why => .refused (.invalidCommand why)
  else .refused .beforeReset

/-- One transaction. A reset wins over a command beside it (R211); where the host presents nothing the block
holds its registers (R192). -/
def serve (t : Transaction) (s : State) : Host.Outcome State Fault Refusal :=
  if t.rst then .next s.applyReset
  else match t.cmd with
    | some c => runCommand c s
    | none => .next s

/-- The command word `c` presented next, on a block that has been reset. -/
def State.presentCommand (s : State) (c : Command) : State :=
  { s.present ⟨false, some c⟩ with wasReset := true }

end Sys2Proof.Machine
end

