-- ==== Sys2Proof/Machine/Step.lean ====
section
/-! DEFINITION. One step: the block takes the host's next transaction (spec 30_encoding.md R60, 20_memory.md R51). -/

namespace Sys2Proof.Machine

/-- One step serves one transaction; with none pending the host has stopped and the block holds its registers
(R192, R194; log entry 8). -/
def step (s : State) : Host.Outcome State Fault Refusal :=
  match s.pending with
  | [] => .next s
  | t :: rest => serve t (s.take rest)

/-- The state in which the host presents the word `w` next: there is no instruction memory (R30), so the
command port is where the next command comes from (log entry 5). -/
def State.withFetchWord (s : State) (nbits w : Nat) : State :=
  s.presentCommand (BitVec.ofNat 136 (w % 2 ^ nbits))

end Sys2Proof.Machine
end

