-- ==== Sys2Proof/Machine/Assembler.lean ====
section
/-! DEFINITION. The host's notation for a program: assembler syntax, the pseudo-instruction `CFG` and the
directives `.reset` and `.rep` (spec 30_encoding.md R74, R75). A program becomes the transactions that the
host presents. What R74 leaves open of the text (blanks, empty lines, signs, the form of a decimal numeral,
-0.0), and R75 of the `n` of `.rep`, is log entry 17. -/

namespace Sys2Proof.Machine

/-- One line of a program (R74, R75). -/
inductive AsmLine where
  /-- A command. -/
  | command (i : Instr)
  /-- `.reset`: the reset event (R75(b)). -/
  | reset
  /-- `.rep n` before a command: `n` copies of it (R75(c)). -/
  | rep (n : Nat)
  deriving DecidableEq, Repr

/-- `CFG frequency, mixWeight, kind, sampleRate` is `CFG.kind frequency, mixWeight, sampleRate` (R75(a)). -/
def pseudoCfg (frequency : Word) (mixWeight : F64) (kind : Waveform) (sampleRate : Word) : Instr :=
  match kind with
  | .sd => .cfgSd frequency mixWeight sampleRate
  | .sc => .cfgSc frequency mixWeight sampleRate
  | .sq => .cfgSq frequency mixWeight sampleRate

/-- The transaction that presents a command, in its canonical encoding (R72). -/
def commandTransaction (i : Instr) : Transaction := ⟨false, some (encode i)⟩

/-- The transactions of a program; `none` where a `.rep` does not stand before a command (R75(c)): no directive is
a command, and the pseudo-instruction `CFG` is read as the command it expands to. -/
def assemble : List AsmLine → Option (List Transaction)
  | [] => some []
  | .command i :: rest => (assemble rest).map (commandTransaction i :: ·)
  | .reset :: rest => (assemble rest).map (⟨true, none⟩ :: ·)
  | .rep n :: .command i :: rest => (assemble rest).map (List.replicate n (commandTransaction i) ++ ·)
  | .rep _ :: _ => none

/-! ### Numerals (R74) -/

/-- The value of a digit in a base of at most 16. -/
def digitValue (base : Nat) (c : Char) : Option Nat :=
  let n := c.toNat
  let v := if 48 ≤ n ∧ n ≤ 57 then n - 48
    else if 65 ≤ n ∧ n ≤ 70 then n - 55
    else if 97 ≤ n ∧ n ≤ 102 then n - 87
    else 16
  if v < base then some v else none

/-- The number that digits spell after those already read. -/
def readDigits (base : Nat) : Nat → List Char → Option Nat
  | acc, [] => some acc
  | acc, c :: rest =>
    match digitValue base c with
    | some v => readDigits base (acc * base + v) rest
    | none => none

/-- A number of at least one digit. -/
def readNat (base : Nat) (text : List Char) : Option Nat :=
  if text.isEmpty then none else readDigits base 0 text

/-- `<u32>`: a decimal integer in 0..4294967295, or `0x` and up to 8 hexadecimal digits. -/
def readU32 : List Char → Option Word
  | '0' :: 'x' :: hex => if hex.length ≤ 8 then (readNat 16 hex).map (BitVec.ofNat 32) else none
  | text => (readNat 10 text).bind fun n => if n < 2 ^ 32 then some (BitVec.ofNat 32 n) else none

/-- `<i32>`: a signed decimal integer in range, or `0x` and up to 8 hexadecimal digits (R74). DESIGN CHOICE: the
only sign read is `-`; R74 does not say whether `+` may stand there, and it is refused; log entry 17. -/
def readI32 : List Char → Option Word
  | '0' :: 'x' :: hex => if hex.length ≤ 8 then (readNat 16 hex).map (BitVec.ofNat 32) else none
  | '-' :: text =>
    (readNat 10 text).bind fun n => if n ≤ 2 ^ 31 then some (BitVec.ofInt 32 (-(n : Int))) else none
  | text => (readNat 10 text).bind fun n => if n < 2 ^ 31 then some (BitVec.ofNat 32 n) else none

/-- The digits before the decimal point, and those after it if there is one. -/
def splitPoint : List Char → List Char × Option (List Char)
  | [] => ([], none)
  | '.' :: rest => ([], some rest)
  | c :: rest => let (whole, part) := splitPoint rest; (c :: whole, part)

/-- The digits of a decimal numeral, its sign read before, stand for the binary64 datum nearest to it, ties to even (R74). -/
def readDecimalF64 (negative : Bool) (text : List Char) : Option F64 :=
  match splitPoint text with
  | (whole, none) => (readNat 10 whole).map fun n => packF64 negative (roundLow (n * quantaPerOne) 1)
  | (whole, some part) =>
    if whole.isEmpty || part.isEmpty then none
    else (readNat 10 (whole ++ part)).map fun n =>
      packF64 negative (roundLow (n * quantaPerOne) (10 ^ part.length))

/-- `<f64>`: a decimal numeral, or `0x` and exactly 16 hexadecimal digits (R74). DESIGN CHOICE: `-` is the only
sign read, and `-0.0`, like any spelling of zero with `-`, stands for the pattern of -0.0; R74 says only the
nearest datum, and both zeros have the value 0; log entry 17. -/
def readF64 : List Char → Option F64
  | '0' :: 'x' :: hex => if hex.length = 16 then (readNat 16 hex).map (BitVec.ofNat 64) else none
  | '-' :: text => readDecimalF64 true text
  | text => readDecimalF64 false text

/-! ### Lines (R74, R75) -/

/-- The words of a line; a comma is a word, `;` ends the line. `word` is the word being read, backwards. -/
def splitWords : List Char → List Char → List (List Char)
  | [], word => if word.isEmpty then [] else [word.reverse]
  | c :: rest, word =>
    let before := if word.isEmpty then [] else [word.reverse]
    if c = ';' then before
    else if c = ' ' ∨ c = '\t' then before ++ splitWords rest []
    else if c = ',' then before ++ [','] :: splitWords rest []
    else splitWords rest (c :: word)

/-- The waveform argument of the pseudo-instruction. -/
def readKind (text : List Char) : Option Waveform :=
  if text = ['S', 'D'] then some .sd
  else if text = ['S', 'C'] then some .sc
  else if text = ['S', 'Q'] then some .sq
  else none

/-- A configure of the primary form: frequency, weight, kind, rate. -/
def readCfg (f w : List Char) (kind : Waveform) (r : List Char) : Option AsmLine :=
  match readU32 f, readF64 w, readU32 r with
  | some frequency, some mixWeight, some sampleRate =>
    some (.command (pseudoCfg frequency mixWeight kind sampleRate))
  | _, _, _ => none

/-- One line of the syntax of R74 and R75; `none` for any other text. DESIGN CHOICE, log entry 17: a line that is
empty or holds only a comment is refused, since R74 says one command per line and no more; and the `n` of `.rep`,
whose form and range R75 does not give, is decimal digits without a sign, of any size and 0 among them, and no
`0x` pattern. -/
def readLine (text : List Char) : Option AsmLine :=
  match splitWords text [] with
  | [m] => if m = ['.', 'r', 'e', 's', 'e', 't'] then some .reset else none
  | [m, x] =>
    if m = ['P', 'R', 'O', 'C'] then (readI32 x).map fun v => .command (.proc v)
    else if m = ['.', 'r', 'e', 'p'] then (readNat 10 x).map .rep
    else none
  | [m, x, [','], y] =>
    if m = ['C', 'F', 'G', 'L'] then
      match readU32 x, readF64 y with
      | some targetDelta, some mixWeight => some (.command (.cfgl targetDelta mixWeight))
      | _, _ => none
    else none
  | ['C', 'F', 'G', '.', k₁, k₂] :: [f, [','], w, [','], r] =>
    (readKind [k₁, k₂]).bind fun kind => readCfg f w kind r
  | ['C', 'F', 'G'] :: [f, [','], w, [','], k, [','], r] =>
    (readKind k).bind fun kind => readCfg f w kind r
  | _ => none

end Sys2Proof.Machine
end

