-- ==== Sys2Proof/Safety.lean ====
section
/-! DEFINITION. The vocabulary of the claims: the values of binary64 data and rounding as relations
(spec 42_numerics.md R146, R147, R160), the host's contract (70_reset_and_hazards.md R215), and runs of the
machine (00_scope.md R10). -/

namespace Sys2Proof.Machine

/-! ### Values (R146) -/

/-- The value of a finite datum, as R146 writes it: a subnormal or zero is `(-1)^s · f · 2^-1074`, a normal
`(-1)^s · (2^52 + f) · 2^(e-1075)`. -/
def value (x : F64) : ℚ :=
  (if signBit x then -1 else 1) *
    (if expField x = 0 then (fracField x : ℚ) * 2 ^ (-1074 : Int)
     else (2 ^ 52 + (fracField x : ℚ)) * 2 ^ ((expField x : Int) - 1075))

/-- The fraction of a value dropped (R9, R158). -/
def truncate (q : ℚ) : Int := if 0 ≤ q then ⌊q⌋ else ⌈q⌉

/-- `x` is `RN(r)` (R147): from `2^1024 - 2^970` on the infinity with the sign of `r`; else a finite datum
none is nearer than, even where another is equally near, and with the sign of `r` where `r ≠ 0` rounds
to a zero. -/
def IsRounded (r : ℚ) (x : F64) : Prop :=
  if 2 ^ 1024 - 2 ^ 970 ≤ |r| then x = infinity (decide (r < 0))
  else
    isFinite x = true ∧
    (∀ y : F64, isFinite y = true → |r - value x| ≤ |r - value y|) ∧
    (∀ y : F64, isFinite y = true → value y ≠ value x → |r - value y| = |r - value x| →
      x.getLsbD 0 = false) ∧
    (r ≠ 0 → value x = 0 → signBit x = decide (r < 0))

/-- What R160 lets a model assume of a sine function beside its being a function (SIN-DET): SIN-RANGE,
SIN-ZERO and SIN-NAN. -/
def SinLawful (f : F64 → F64) : Prop :=
  (∀ x, isFinite x = true → isFinite (f x) = true ∧ -1 ≤ value (f x) ∧ value (f x) ≤ 1) ∧
  f 0x0000000000000000 = 0x0000000000000000 ∧
  f 0x8000000000000000 = 0x8000000000000000 ∧
  (∀ x, isFinite x = false → isNaN (f x) = true)

/-- A datum's place in the order of the finite data, both zeros at 0: neighbours differ by 1. -/
def ordinal (x : F64) : Int :=
  if signBit x then -((x.toNat % 2 ^ 63 : Nat) : Int) else ((x.toNat % 2 ^ 63 : Nat) : Int)

/-- `x` is `RN(r)` for a real `r` of magnitude at most 1, as far as SIN-ACC needs it. -/
def IsNearestReal (r : ℝ) (x : F64) : Prop :=
  isFinite x = true ∧ (∀ y : F64, isFinite y = true → |r - (value x : ℝ)| ≤ |r - (value y : ℝ)|)

/-- SIN-ACC (R160), the optional property with parameter `SIN_ULP`: for every finite `x`, `fsin(x)` is within
`sinUlp` places of `RN(sin x)`. No definition of the model uses it; a claim that needs it takes it as a
hypothesis. DESIGN CHOICE: units in the last place are counted as neighbours, log entry 15. -/
def SinAccurate (sinUlp : Nat) : Prop :=
  ∀ x : F64, isFinite x = true →
    ∃ r : F64, IsNearestReal (Real.sin (value x : ℝ)) r ∧ |ordinal (fsin x) - ordinal r| ≤ sinUlp

/-! ### The contract of the host (R215) -/

/-- A weight with `0.0 ≤ w ≤ 1.0` (R26, R215). -/
def UnitWeight (w : F64) : Prop := isFinite w = true ∧ 0 ≤ value w ∧ value w ≤ 1

/-- The preconditions of R215 that make every later `sample_out` specified. -/
def InstrInContract : Instr → Prop
  | .proc _ => True
  | .cfgl _ w => UnitWeight w
  | .cfgSd _ w r => r ≠ 0 ∧ UnitWeight w
  | .cfgSc _ w r => r ≠ 0 ∧ UnitWeight w
  | .cfgSq _ w r => r ≠ 0 ∧ UnitWeight w

/-- A transaction that keeps the contract: a reset, nothing, or a command in contract. -/
def TransactionInContract (t : Transaction) : Prop :=
  t.rst = true ∨ t.cmd = none ∨ ∃ c i, t.cmd = some c ∧ decode c = .ok i ∧ InstrInContract i

/-- The largest delta of `CFG.SC` (R92). -/
def largestDelta : F64 := 0x421921FB542B0B1D

/-- The smallest non-zero delta of `CFG.SC` (R92). -/
def smallestDelta : F64 := 0x3E1921FB545D4F13

/-- `WI` is `1 - WT` as the configure commands leave it, NaN for NaN (R27, R29, R94). -/
def WeightsAgree (s : State) : Prop :=
  (isNaN s.wt = true → isNaN s.wi = true) ∧
  (isNaN s.wt = false → ∀ free, s.wi = fsub free onePointZero s.wt)

/-- The states that a host in contract reaches: weights in [0, 1] that agree, a delta that `CFG.SC` can give,
and a phase below 2^88, where it stops growing (R181 rows X5 and X8). -/
def StateInContract (s : State) : Prop :=
  UnitWeight s.wt ∧ WeightsAgree s ∧
  (isFinite s.df = true ∧ 0 ≤ value s.df ∧ value s.df ≤ value largestDelta) ∧
  (isFinite s.phf = true ∧ 0 ≤ value s.phf ∧ value s.phf ≤ 2 ^ 88)

/-! ### Runs (R10) -/

/-- One step of R10: the command executed with draws of its own (R9), as `Machine.step` executes it; what the
host has still to present stays. The counter of draws is the model's, log entry 3. -/
def execStep (i : Instr) (s : State) : Host.Outcome State Fault Refusal := exec i (s.take s.pending)

/-- Commands executed one after another, each a step with draws of its own. -/
def execAll : List Instr → State → Host.Outcome State Fault Refusal
  | [], s => .next s
  | i :: rest, s =>
    match execStep i s with
    | .next t => execAll rest t
    | .fault r => .fault r
    | .refused r => .refused r

/-- A run (R10): a reset, then a finite sequence of steps. -/
def runFromReset (program : List Instr) : Host.Outcome State Fault Refusal :=
  execAll program State.reset

/-- The observation of a run (R10). -/
structure Observation where
  /-- The `sample_out` values that the `PROC` steps returned, in order. -/
  samples : List Word
  /-- The final state. -/
  final : State
  deriving DecidableEq, Repr

/-- The observation an outcome shows, where it is a next state (R10). -/
def observed : Host.Outcome State Fault Refusal → Option Observation
  | .next t => some ⟨t.responses, t⟩
  | .fault _ => none
  | .refused _ => none

/-- The number of `PROC` steps after which `PHI` returns (R122). -/
def phasePeriod (d : Byte) : Nat := 2 ^ 32 / Nat.gcd d.toNat (2 ^ 32)

/-- The number of `PROC` steps from `PHI` = 0 that see the lower half (R123): `ceil(2^31 / d)`. -/
def lowHalfSteps (d : Byte) : Nat := (2 ^ 31 + d.toNat - 1) / d.toNat

/-- The registers of R20 alone, the host's side and the draws set aside. -/
def SameRegisters (s t : State) : Prop :=
  s.phi = t.phi ∧ s.phf = t.phf ∧ s.di = t.di ∧ s.df = t.df ∧ s.wt = t.wt ∧ s.wi = t.wi ∧ s.kind = t.kind

end Sys2Proof.Machine
end

