-- ==== Sys2Proof/Certificates/Slice0/Obligations.lean ====
section
/-! DEFINITION. The statements for the provers. Each docstring names the rules of spec/ it comes from. -/

open Sys2Proof Sys2Proof.Machine

/-! ### Encoding (30_encoding.md) -/

/-- R61, R62, R64, R68: decoding an encoded instruction gives it back, as a word, as 17 bytes, and as the host
asks for it, with every operand at every value. -/
def Obligations.DecodeEncodeRoundTrip : Prop :=
  ∀ i : Instr, i.wellFormed = true →
    decode (encode i) = .ok i ∧
    decodeFrame (commandBytes (encode i)) = .ok i ∧
    decodeTableWord 136 (encode i).toNat = some i

/-- R72: encoding a decoded word gives the word with its ignored fields zero. -/
def Obligations.EncodeDecodeCanonical : Prop :=
  ∀ (c : Command) (i : Instr), decode c = .ok i →
    encode i = packCommand 0 (opField c) (if opField c = 2 then wfField c else 0) (aField c)
      (if opField c = 2 then bField c else 0) (if opField c = 0 then 0 else wField c)

/-- R68: a word decodes exactly where a row of the opcode table selects it, to that row's instruction, and no
two rows select one word. -/
def Obligations.DecodeMatchesOpcodeTable : Prop :=
  ∀ c : Command,
    ((∃ i, decode c = .ok i) ↔ ∃ r ∈ opcodeTable, r.selects c = true) ∧
    (∀ i, decode c = .ok i → ∀ r ∈ opcodeTable, (r.selects c = true ↔ r.mnemonic = i.mnemonic)) ∧
    (∀ r ∈ opcodeTable, ∀ q ∈ opcodeTable, r.selects c = true → q.selects c = true → r = q)

/-- R70: a word is invalid in exactly three cases. -/
def Obligations.InvalidInExactlyThreeCases : Prop :=
  ∀ c : Command,
    (∃ e, decode c = .error e) ↔
      (rsvField c ≠ 0 ∨ opField c = 3 ∨ (opField c = 2 ∧ wfField c = 3))

/-- R69: the complete map of the header byte. -/
def Obligations.HeaderByteMap : Prop :=
  ∀ c : Command,
    ((headerByte c).toNat ≤ 0x03 → decode c = .ok (.proc (aField c))) ∧
    (0x04 ≤ (headerByte c).toNat → (headerByte c).toNat ≤ 0x07 → decode c = .ok (.cfgl (aField c) (wField c))) ∧
    (headerByte c = 0x08 → decode c = .ok (.cfgSd (aField c) (wField c) (bField c))) ∧
    (headerByte c = 0x09 → decode c = .ok (.cfgSc (aField c) (wField c) (bField c))) ∧
    (headerByte c = 0x0A → decode c = .ok (.cfgSq (aField c) (wField c) (bField c))) ∧
    (headerByte c = 0x0B → decode c = .error .reservedWaveform) ∧
    (0x0C ≤ (headerByte c).toNat → (headerByte c).toNat ≤ 0x0F → decode c = .error .reservedOperation) ∧
    (0x10 ≤ (headerByte c).toNat → decode c = .error .reservedBits)

/-- R72: what `PROC` and `CFGL` ignore has no effect; a `CFG` command uses every field. -/
def Obligations.IgnoredFieldsHaveNoEffect : Prop :=
  ∀ (wf : BitVec 2) (a b : Word) (w : F64) (kind : Waveform),
    decode (packCommand 0 0 wf a b w) = .ok (.proc a) ∧
    decode (packCommand 0 1 wf a b w) = .ok (.cfgl a w) ∧
    decode (packCommand 0 2 kind.code a b w) = .ok (pseudoCfg a w kind b)

/-- R64: a word is 17 bytes, most significant first, `sample_out` is 4; the decoder reads them back. -/
def Obligations.BytesMostSignificantFirst : Prop :=
  (∀ c : Command,
    (commandBytes c).length = 17 ∧
    (∀ k, k < 17 → (commandBytes c)[k]? = some (c.extractLsb' (8 * (16 - k)) 8)) ∧
    (commandBytes c)[0]? = some (headerByte c) ∧
    (∀ k, k < 4 → (commandBytes c)[1 + k]? = some ((aField c).extractLsb' (8 * (3 - k)) 8)) ∧
    (∀ k, k < 4 → (commandBytes c)[5 + k]? = some ((bField c).extractLsb' (8 * (3 - k)) 8)) ∧
    (∀ k, k < 8 → (commandBytes c)[9 + k]? = some ((wField c).extractLsb' (8 * (7 - k)) 8)) ∧
    decodeFrame (commandBytes c) = decode c) ∧
  (∀ v : Word,
    (sampleBytes v).length = 4 ∧
    (∀ k, k < 4 → (sampleBytes v)[k]? = some (v.extractLsb' (8 * (3 - k)) 8)))

/-- R61, R62, R64: the worked encodings, bytes as the table of 30_encoding.md section 7 writes them (the spec marks
that table as derived from these rules). -/
def Obligations.WorkedEncodingsDecode : Prop :=
  decodeFrame [0x00, 0x00, 0x00, 0x03, 0xE8, 0, 0, 0, 0, 0, 0, 0, 0, 0, 0, 0, 0] = .ok (.proc 1000) ∧
  decodeFrame [0x00, 0xFF, 0xFF, 0xFF, 0xFF, 0, 0, 0, 0, 0, 0, 0, 0, 0, 0, 0, 0] =
    .ok (.proc (BitVec.ofInt 32 (-1))) ∧
  decodeFrame [0x04, 0x12, 0x34, 0x56, 0x78, 0, 0, 0, 0, 0x3F, 0xD0, 0, 0, 0, 0, 0, 0] =
    .ok (.cfgl 0x12345678 0x3FD0000000000000) ∧
  decodeFrame [0x08, 0x00, 0x00, 0x03, 0xE8, 0x00, 0x00, 0xBB, 0x80, 0x3F, 0xE0, 0, 0, 0, 0, 0, 0] =
    .ok (.cfgSd 1000 0x3FE0000000000000 48000) ∧
  decodeFrame [0x09, 0x00, 0x00, 0x03, 0xE8, 0x00, 0x00, 0xBB, 0x80, 0x3F, 0xF0, 0, 0, 0, 0, 0, 0] =
    .ok (.cfgSc 1000 0x3FF0000000000000 48000) ∧
  decodeFrame [0x0A, 0x00, 0x00, 0x03, 0xE8, 0x00, 0x00, 0xBB, 0x80, 0x3F, 0xF0, 0, 0, 0, 0, 0, 0] =
    .ok (.cfgSq 1000 0x3FF0000000000000 48000)

/-- R75: the pseudo-instruction `CFG` and the directives `.rep` and `.reset`. -/
def Obligations.AssemblerExpansions : Prop :=
  (∀ f w r, pseudoCfg f w .sd r = .cfgSd f w r ∧ pseudoCfg f w .sc r = .cfgSc f w r ∧
    pseudoCfg f w .sq r = .cfgSq f w r) ∧
  (∀ n i, assemble [.rep n, .command i] = some (List.replicate n ⟨false, some (encode i)⟩)) ∧
  assemble [.reset] = some [⟨true, none⟩]

/-! ### The step (20_memory.md, 30_encoding.md, 70_reset_and_hazards.md) -/

/-- R51, R60, R68: where the word presented decodes, the step is the execution of the instruction on the state
whose queue has lost that word and whose draws are new (the queue and the counter of draws are the
model's, log entries 5 and 3). -/
def Obligations.StepRunsDecodedInstruction : Prop :=
  ∀ (s : State) (c : Command) (rest : List Transaction) (i : Instr),
    s.wasReset = true → s.pending = ⟨false, some c⟩ :: rest → decode c = .ok i →
      step s = exec i { s with pending := rest, draws := s.draws + 1 }

/-- R211, R210: a reset takes precedence over a command beside it; the registers take their reset values (R34), no
word is returned. That reset and command can be presented together is the model's choice (R211's coincidence,
log entry 13), and so is what becomes of the host's side: the transaction leaves the queue (log entry 5), the
draws move on (log entry 3), the words returned and the indices presented so far are kept (log entries 6 and 7). -/
def Obligations.ResetTakesPrecedence : Prop :=
  ∀ (s : State) (cmd : Option Command) (rest : List Transaction),
    s.pending = ⟨true, cmd⟩ :: rest →
      step s = .next { State.reset with
        pending := rest, responses := s.responses, tableReads := s.tableReads, draws := s.draws + 1 }

/-- R34: the reset values, in State.reset and after the reset event in any state. -/
def Obligations.ResetValues : Prop :=
  (∀ s : State, SameRegisters s.applyReset State.reset) ∧
  State.reset.phi = 0x00000000 ∧ State.reset.phf = 0x0000000000000000 ∧ State.reset.di = 0x00 ∧
  State.reset.df = 0x0000000000000000 ∧ State.reset.wt = 0x0000000000000000 ∧
  State.reset.wi = 0x3FF0000000000000 ∧ State.reset.kind.code = 0

/-- R71, R182 row X9: a reserved word is refused by name, not a fault. That the model refuses where the block
ignores the word is the model's choice, log entry 10. -/
def Obligations.InvalidWordRefused : Prop :=
  ∀ (s : State) (c : Command) (rest : List Transaction) (why : DecodeReject),
    s.wasReset = true → s.pending = ⟨false, some c⟩ :: rest → decode c = .error why →
      step s = .refused (.invalidCommand why)

/-- R212: a command before any reset has no meaning (refusal). That State says whether a reset has come is the
model's choice, log entry 9. -/
def Obligations.CommandBeforeResetRefused : Prop :=
  ∀ (s : State) (c : Command) (rest : List Transaction),
    s.wasReset = false → s.pending = ⟨false, some c⟩ :: rest → step s = .refused .beforeReset

/-- R192, R194: with nothing presented the block holds its registers and returns nothing. That such a step
exists is the model's choice, log entry 8. -/
def Obligations.IdleHoldsRegisters : Prop :=
  (∀ s : State, s.pending = [] → step s = .next s) ∧
  (∀ (s : State) (rest : List Transaction), s.pending = ⟨false, none⟩ :: rest →
    step s = .next { s with pending := rest, draws := s.draws + 1 })

/-- R180: every command of the five completes, in every state. -/
def Obligations.EveryCommandCompletes : Prop :=
  ∀ (i : Instr) (s : State), ∃ t, exec i s = .next t

/-- R10, R51, R210: the runs that the statements below speak of are the machine's own. The commands of a program,
presented one after another, step as `execAll` executes them; and so does a reset presented before them, in
any state. The queue, the counter of draws and the lists that a reset keeps are the model's, log entries 5, 3,
6 and 7. -/
def Obligations.RunsAreStepsOfTheMachine : Prop :=
  (∀ (program : List Instr) (rest : List Transaction) (s : State), s.wasReset = true →
    Host.Core.run core program.length { s with pending := program.map commandTransaction ++ rest } =
      execAll program { s with pending := rest }) ∧
  (∀ (program : List Instr) (s : State),
    Host.Core.run core (program.length + 1)
        { s with pending := ⟨true, none⟩ :: program.map commandTransaction } =
      execAll program { State.reset with
        responses := s.responses, tableReads := s.tableReads, draws := s.draws + 1 })

/-! ### Integer arithmetic (42_numerics.md) -/

/-- R140: phase addition is modulo 2^32. -/
def Obligations.PhaseAdditionWraps : Prop :=
  ∀ (phase : Word) (delta : Byte), (phaseAdd phase delta).toNat = (phase.toNat + delta.toNat) % 2 ^ 32

/-- R142: the scaled amplitude is the exact product, the table byte over 24 zero bits. -/
def Obligations.AmplitudeScalingExact : Prop :=
  ∀ entry : Byte,
    (scaleAmplitude entry).toInt = entry.toInt * 16777216 ∧
    (scaleAmplitude entry).extractLsb' 24 8 = entry ∧
    (scaleAmplitude entry).extractLsb' 0 24 = 0

/-- R96: the integer delta; below 2^24 a product wrapped at 32 bits gives the same. -/
def Obligations.IntegerDeltaFloorsAndAliases : Prop :=
  ∀ frequency sampleRate : Word, sampleRate ≠ 0 →
    ((idelta frequency sampleRate).toNat : ℤ) = ⌊(frequency.toNat * 256 / sampleRate.toNat : ℚ)⌋ % 256 ∧
    (frequency.toNat < 2 ^ 24 →
      (idelta frequency sampleRate).toNat = ((frequency * 256).toNat / sampleRate.toNat) % 256)

/-! ### Binary64 (42_numerics.md) -/

/-- R147: the model's rounding of a non-zero magnitude `n / d` quanta of 2^-1074 is `RN`. -/
def Obligations.RoundingIsNearestTiesToEven : Prop :=
  ∀ (negative : Bool) (n d : Nat), 0 < n → 0 < d →
    IsRounded ((if negative then -1 else 1) * ((n : ℚ) / d) * 2 ^ (-1074 : Int))
      (packF64 negative (roundLow n d))

/-- R148: a NaN result may be any NaN pattern, and only a NaN pattern. -/
def Obligations.NanResultIsAnyNan : Prop :=
  (∀ free, isNaN (nanOf free) = true) ∧ (∀ p, isNaN p = true → nanOf p = p)

/-- R150: `fadd`. -/
def Obligations.AdditionMeetsItsRule : Prop :=
  ∀ free x y : F64,
    (isNaN x = true ∨ isNaN y = true → isNaN (fadd free x y) = true) ∧
    (isFinite x = true → isFinite y = true → value x + value y ≠ 0 →
      IsRounded (value x + value y) (fadd free x y)) ∧
    (isFinite x = true → isFinite y = true → value x + value y = 0 →
      fadd free x y =
        if x = 0x8000000000000000 ∧ y = 0x8000000000000000 then 0x8000000000000000
        else 0x0000000000000000) ∧
    (isNaN x = false → isZero x = false → isZero y = true → fadd free x y = x) ∧
    (isInf x = true → isFinite y = true → fadd free x y = x) ∧
    (isInf x = true → isInf y = true → signBit x = signBit y → fadd free x y = x) ∧
    (isInf x = true → isInf y = true → signBit x ≠ signBit y → isNaN (fadd free x y) = true) ∧
    fadd free x y = fadd free y x

/-- R151: `fsub`. -/
def Obligations.SubtractionMeetsItsRule : Prop :=
  (∀ free x y : F64, fsub free x y = fadd free x (y ^^^ 0x8000000000000000)) ∧
  (∀ free : F64,
    fsub free onePointZero onePointZero = 0x0000000000000000 ∧
    fsub free onePointZero 0x0000000000000000 = onePointZero ∧
    fsub free onePointZero 0x8000000000000000 = onePointZero ∧
    fsub free onePointZero 0x7FF0000000000000 = 0xFFF0000000000000 ∧
    (∀ w, isNaN w = true → isNaN (fsub free onePointZero w) = true) ∧
    (∀ w, isFinite w = true → 1 / 2 ≤ value w → value w ≤ 2 →
      isFinite (fsub free onePointZero w) = true ∧
      value (fsub free onePointZero w) = 1 - value w))

/-- R152: `fmul`. -/
def Obligations.MultiplicationMeetsItsRule : Prop :=
  ∀ free x y : F64,
    (isNaN x = true ∨ isNaN y = true → isNaN (fmul free x y) = true) ∧
    (isFinite x = true → isFinite y = true → isZero x = true ∨ isZero y = true →
      fmul free x y = packF64 (signBit x != signBit y) 0) ∧
    (isFinite x = true → isFinite y = true → isZero x = false → isZero y = false →
      IsRounded (value x * value y) (fmul free x y)) ∧
    (isInf x = true → isNaN y = false → isZero y = false →
      fmul free x y = infinity (signBit x != signBit y)) ∧
    (isInf x = true → isZero y = true → isNaN (fmul free x y) = true) ∧
    (isNaN x = false → fmul free x onePointZero = x) ∧
    (∀ n : Word, fmul free (i2f n) 0x0000000000000000 =
      if n.toInt < 0 then 0x8000000000000000 else 0x0000000000000000) ∧
    fmul free x y = fmul free y x

/-- R153: `fdiv`. -/
def Obligations.DivisionMeetsItsRule : Prop :=
  ∀ free x y : F64,
    (isNaN x = true ∨ isNaN y = true → isNaN (fdiv free x y) = true) ∧
    (isZero x = true → isFinite y = true → isZero y = false →
      fdiv free x y = packF64 (signBit x != signBit y) 0) ∧
    (isFinite x = true → isZero x = false → isFinite y = true → isZero y = false →
      IsRounded (value x / value y) (fdiv free x y)) ∧
    (isFinite x = true → isZero x = false → isZero y = true →
      fdiv free x y = infinity (signBit x != signBit y)) ∧
    (isZero x = true → isZero y = true → isNaN (fdiv free x y) = true) ∧
    (isInf x = true → isInf y = true → isNaN (fdiv free x y) = true) ∧
    (isInf x = true → isFinite y = true → isInf (fdiv free x y) = true) ∧
    (isFinite x = true → isInf y = true → isZero (fdiv free x y) = true)

/-- R155: `feq`, and the two patterns of `DF` that it takes for zero. -/
def Obligations.EqualityMeetsItsRule : Prop :=
  (∀ x y : F64,
    (isNaN x = true ∨ isNaN y = true → feq x y = false) ∧
    (isFinite x = true → isFinite y = true → (feq x y = true ↔ value x = value y)) ∧
    (isInf x = true → isInf y = true → (feq x y = true ↔ x = y)) ∧
    (isFinite x = true → isInf y = true → feq x y = false ∧ feq y x = false)) ∧
  (∀ x : F64, feq x zeroPointZero = true ↔ (x = 0x0000000000000000 ∨ x = 0x8000000000000000))

/-- R156, R157: the conversions from integers are exact. -/
def Obligations.IntegerConversionsExact : Prop :=
  (∀ n : Word, isFinite (i2f n) = true ∧ value (i2f n) = n.toInt) ∧
  (∀ n : Word, isFinite (u2f n) = true ∧ value (u2f n) = n.toNat) ∧
  i2f 0 = 0x0000000000000000 ∧ u2f 0 = 0x0000000000000000

/-- R158: narrowing truncates toward zero in range and is a draw out of range. -/
def Obligations.NarrowingMeetsItsRule : Prop :=
  ∀ (draw : Word) (v : F64),
    (isFinite v = true → -2147483649 < value v → value v < 2147483648 →
      (f2i draw v).toInt = truncate (value v)) ∧
    (isFinite v = false ∨ value v ≤ -2147483649 ∨ 2147483648 ≤ value v → f2i draw v = draw)

/-- R160: the sine has the named properties. -/
def Obligations.SineHasNamedProperties : Prop := SinLawful fsin

/-- R160: the model excludes no sine function that has the named properties, and admits no other. -/
def Obligations.SineModelIsExactlyTheLawfulOnes : Prop :=
  ∀ f : F64 → F64, SinLawful f ↔ ∃ raw, lawfulSin raw = f

/-! ### The configure instructions (40_configure.md) -/

/-- R90: `CFGL`, the whole next state. -/
def Obligations.CfglEffect : Prop :=
  ∀ (s : State) (targetDelta : Word) (w : F64),
    exec (.cfgl targetDelta w) s = .next { s with
      di := BitVec.ofNat 8 ((targetDelta.toNat >>> 24) &&& 0xFF)
      wt := w
      wi := fsub (Config.drawNaN .inputWeight s.draws) 0x3FF0000000000000 w
      kind := .sd }

/-- R91, R96: `CFG.SD` at a rate above 0, the whole next state. -/
def Obligations.CfgSdEffect : Prop :=
  ∀ (s : State) (f r : Word) (w : F64), r ≠ 0 →
    exec (.cfgSd f w r) s = .next { s with
      di := BitVec.ofNat 8 (f.toNat * 256 / r.toNat)
      wt := w
      wi := fsub (Config.drawNaN .inputWeight s.draws) 0x3FF0000000000000 w
      kind := .sd }

/-- R93, R96: `CFG.SQ` at a rate above 0, the whole next state. -/
def Obligations.CfgSqEffect : Prop :=
  ∀ (s : State) (f r : Word) (w : F64), r ≠ 0 →
    exec (.cfgSq f w r) s = .next { s with
      di := BitVec.ofNat 8 (f.toNat * 256 / r.toNat)
      wt := w
      wi := fsub (Config.drawNaN .inputWeight s.draws) 0x3FF0000000000000 w
      kind := .sq }

/-- R92: `CFG.SC` at a rate above 0, the whole next state: `DF` is `2π · f` rounded, divided by the rate,
rounded. -/
def Obligations.CfgScEffect : Prop :=
  ∀ (s : State) (f r : Word) (w : F64), r ≠ 0 → ∃ product delta : F64,
    exec (.cfgSc f w r) s = .next { s with
      df := delta
      wt := w
      wi := fsub (Config.drawNaN .inputWeight s.draws) 0x3FF0000000000000 w
      kind := .sc } ∧
    IsRounded (value 0x401921FB54442D18 * f.toNat) product ∧
    IsRounded (value product / r.toNat) delta ∧
    (f = 0 → delta = 0x0000000000000000)

/-- R92: the delta of `CFG.SC` at a rate above 0 is finite, not negative, and between the spec's bounds. -/
def Obligations.FloatDeltaRange : Prop :=
  ∀ (draw free free' : F64) (f r : Word), r ≠ 0 →
    isFinite (floatDelta draw free free' f r) = true ∧
    signBit (floatDelta draw free free' f r) = false ∧
    value (floatDelta draw free free' f r) ≤ value largestDelta ∧
    (f ≠ 0 → value smallestDelta ≤ value (floatDelta draw free free' f r))

/-- R97: at rate 0 the delta written is a draw; everything else is as usual. -/
def Obligations.RateZeroDrawsTheDelta : Prop :=
  ∀ (s : State) (f : Word) (w : F64),
    exec (.cfgSd f w 0) s = .next { s with
      di := Config.drawU8 .deltaInteger s.draws
      wt := w
      wi := fsub (Config.drawNaN .inputWeight s.draws) 0x3FF0000000000000 w
      kind := .sd } ∧
    exec (.cfgSq f w 0) s = .next { s with
      di := Config.drawU8 .deltaInteger s.draws
      wt := w
      wi := fsub (Config.drawNaN .inputWeight s.draws) 0x3FF0000000000000 w
      kind := .sq } ∧
    exec (.cfgSc f w 0) s = .next { s with
      df := Config.drawF64 .deltaFloat s.draws
      wt := w
      wi := fsub (Config.drawNaN .inputWeight s.draws) 0x3FF0000000000000 w
      kind := .sc }

/-- R94: what a configure instruction writes depends on its operands alone (and, for a draw, on which draw it
is): two states that number the draws alike get the same values. -/
def Obligations.ConfigureReadsNoRegister : Prop :=
  ∀ (i : Instr) (s s' : State), (∀ x, i ≠ .proc x) → s.draws = s'.draws →
    ∃ t t', exec i s = .next t ∧ exec i s' = .next t' ∧
      t.wt = t'.wt ∧ t.wi = t'.wi ∧ t.kind = t'.kind ∧
      (t.kind = .sc → t.df = t'.df ∧ t.di = s.di ∧ t'.di = s'.di) ∧
      (t.kind ≠ .sc → t.di = t'.di ∧ t.df = s.df ∧ t'.df = s'.df) ∧
      t.phi = s.phi ∧ t.phf = s.phf ∧ t.responses = s.responses ∧ t.tableReads = s.tableReads

/-- R90, R92, R111: a zero frequency and then a zero legacy delta make `PROC` a bypass again; the phases stay.
The spec marks this as its own inference: "To return to bypass without a reset the host must make both
deltas zero" (70_reset_and_hazards.md section 1). -/
def Obligations.TwoConfiguresRestoreBypass : Prop :=
  ∀ (s : State) (w w' : F64) (r x : Word), r ≠ 0 →
    ∃ t, execAll [.cfgSc 0 w r, .cfgl 0 w'] s = .next t ∧ t.phi = s.phi ∧ t.phf = s.phf ∧
      exec (.proc x) t = .next { t with responses := t.responses ++ [x] }

/-! ### The weights (10_state.md section 3) -/

/-- R94: after any configure with operand `w`, `WT = w` and `WI = fsub(1.0, w)`; for `w` in [0, 1] their
floating sum is 1.0 and their real sum is within 2^-54 of 1. The sums are the spec's own inference, from
R150 and R151: "for every `w` with `0.0 <= w <= 1.0`, `fadd(WI, WT)` is exactly `1.0`" (10_state.md
section 3, Weight invariant). -/
def Obligations.WeightSumIsOne : Prop :=
  ∀ (s : State) (i : Instr) (d f r : Word) (w : F64),
    (i = .cfgl d w ∨ i = .cfgSd f w r ∨ i = .cfgSc f w r ∨ i = .cfgSq f w r) →
    ∃ t free, exec i s = .next t ∧ t.wt = w ∧ t.wi = fsub free onePointZero w ∧
      (UnitWeight w →
        (∀ free', fadd free' t.wi t.wt = onePointZero) ∧
        isFinite t.wi = true ∧ |value t.wi + value t.wt - 1| ≤ 2 ^ (-54 : Int))

/-- R27, R94, R34: every step keeps the agreement of the two weights. -/
def Obligations.EveryStepKeepsWeightsAgree : Prop :=
  ∀ s t : State, WeightsAgree s → step s = .next t → WeightsAgree t

/-- R34: the reset weights agree. -/
def Obligations.ResetWeightsAgree : Prop := WeightsAgree State.reset

/-! ### The process instruction (41_process.md) -/

/-- R111: with `DI` = 0 and `DF` = ±0.0, whatever the kind, and in no other state, `PROC` is a bypass: it returns
its input and changes nothing else. The reset state is such a state. -/
def Obligations.BypassReturnsInput : Prop :=
  (∀ (s : State) (x : Word),
    s.di = 0 → (s.df = 0x0000000000000000 ∨ s.df = 0x8000000000000000) →
      exec (.proc x) s = .next { s with responses := s.responses ++ [x] }) ∧
  (∀ s : State, s.bypass = true ↔
    (s.di = 0 ∧ (s.df = 0x0000000000000000 ∨ s.df = 0x8000000000000000))) ∧
  State.reset.bypass = true

/-- R113, R116: `PROC` with kind sine-discrete, not a bypass: the whole next state. -/
def Obligations.SineDiscreteSample : Prop :=
  ∀ (s : State) (x : Word), s.kind = .sd →
    (s.di ≠ 0 ∨ (s.df ≠ 0x0000000000000000 ∧ s.df ≠ 0x8000000000000000)) →
      exec (.proc x) s = .next { s with
        phi := s.phi + s.di.setWidth 32
        tableReads := s.tableReads ++ [s.phi.extractLsb' 24 8]
        responses := s.responses ++
          [f2i (Config.drawI32 .sampleOut s.draws)
            (fadd (Config.drawNaN .mixSum s.draws)
              (fmul (Config.drawNaN .inputProduct s.draws) (i2f x) s.wi)
              (fmul (Config.drawNaN .toneShare s.draws)
                (i2f (BitVec.ofInt 32 ((Config.sineTable (s.phi.extractLsb' 24 8)).toInt * 16777216))) s.wt))] }

/-- R114, R116: `PROC` with kind sine-continuous, not a bypass: the whole next state. -/
def Obligations.SineContinuousSample : Prop :=
  ∀ (s : State) (x : Word), s.kind = .sc →
    (s.di ≠ 0 ∨ (s.df ≠ 0x0000000000000000 ∧ s.df ≠ 0x8000000000000000)) →
      exec (.proc x) s = .next { s with
        phf := fadd (Config.drawNaN .phaseFloat s.draws) s.phf s.df
        responses := s.responses ++
          [f2i (Config.drawI32 .sampleOut s.draws)
            (fadd (Config.drawNaN .mixSum s.draws)
              (fmul (Config.drawNaN .inputProduct s.draws) (i2f x) s.wi)
              (fmul (Config.drawNaN .toneShare s.draws)
                (i2f (f2i (Config.drawI32 .tone s.draws)
                  (fmul (Config.drawNaN .toneProduct s.draws) (fsin s.phf) 0x41DFFFFFFFC00000))) s.wt))] }

/-- R115, R116: `PROC` with kind square, not a bypass: the whole next state. -/
def Obligations.SquareSample : Prop :=
  ∀ (s : State) (x : Word), s.kind = .sq →
    (s.di ≠ 0 ∨ (s.df ≠ 0x0000000000000000 ∧ s.df ≠ 0x8000000000000000)) →
      exec (.proc x) s = .next { s with
        phi := s.phi + s.di.setWidth 32
        responses := s.responses ++
          [f2i (Config.drawI32 .sampleOut s.draws)
            (fadd (Config.drawNaN .mixSum s.draws)
              (fmul (Config.drawNaN .inputProduct s.draws) (i2f x) s.wi)
              (fmul (Config.drawNaN .toneShare s.draws)
                (i2f (if s.phi.getLsbD 31 = false then 0x7FFFFFFF else 0x80000000)) s.wt))] }

/-- R21 to R28, R110: the frame of `PROC` over all kinds: at most the phase of the kind changes, one word is returned. -/
def Obligations.ProcFrame : Prop :=
  ∀ (s : State) (x : Word), ∃ t y, exec (.proc x) s = .next t ∧
    t.di = s.di ∧ t.df = s.df ∧ t.wt = s.wt ∧ t.wi = s.wi ∧ t.kind = s.kind ∧
    t.wasReset = s.wasReset ∧ t.pending = s.pending ∧ t.draws = s.draws ∧
    t.responses = s.responses ++ [y] ∧
    (s.kind = .sc → t.phi = s.phi) ∧ (s.kind ≠ .sc → t.phf = s.phf) ∧
    (s.kind ≠ .sd → t.tableReads = s.tableReads)

/-- R114: for a finite `PHF` the tone sample of the continuous sine is specified, lies in
-2147483647..2147483647, and is the truncation of the rounded product. -/
def Obligations.ContinuousToneInRange : Prop :=
  ∀ (x : F64), isFinite x = true → ∃ (product : F64) (tone : Word),
    IsRounded (value (fsin x) * 2147483647) product ∧
    tone.toInt = truncate (value product) ∧ -2147483647 ≤ tone.toInt ∧ tone.toInt ≤ 2147483647 ∧
    ∀ draw free, f2i draw (fmul free (fsin x) int32MaxF) = tone

/-- R111 to R116: three states that are no bypass although the selected waveform stands still. The spec marks this
as its own inference: "Three states are not bypass although the selected waveform stands still"
(41_process.md section 2). -/
def Obligations.StaleDeltaIsNoBypass : Prop :=
  ∀ (s : State) (x : Word),
    (s.kind ≠ .sc → s.di = 0 → s.df ≠ 0x0000000000000000 → s.df ≠ 0x8000000000000000 →
      ∃ t, exec (.proc x) s = .next t ∧ t.phi = s.phi ∧ t.phf = s.phf ∧
        t.responses = s.responses ++ [s.mix s.synthesize.1 x]) ∧
    (s.kind = .sc → s.di ≠ 0 → (s.df = 0x0000000000000000 ∨ s.df = 0x8000000000000000) →
      isNaN s.phf = false → s.phf ≠ 0x8000000000000000 →
      ∃ t, exec (.proc x) s = .next t ∧ t.phi = s.phi ∧ t.phf = s.phf ∧
        t.responses = s.responses ++ [s.mix s.synthesize.1 x]) ∧
    (s.di = 0 → isNaN s.df = true →
      exec (.proc x) s = .next { s.synthesize.2 with responses := s.responses ++ [s.mix s.synthesize.1 x] })

/-- R116, R158: with a weight in [0, 1] and its complement the sum is in range for every input and every tone, so
`sample_out` is the truncation of the sum and no draw. The spec marks this as its own inference: "In contract,
the narrowing never overflows" (41_process.md section 6). -/
def Obligations.InContractMixIsSpecified : Prop :=
  ∀ (s : State) (x : Word), UnitWeight s.wt → WeightsAgree s →
    (∀ tone : Word, isFinite (s.mixSum tone x) = true ∧
      -2147483649 < value (s.mixSum tone x) ∧ value (s.mixSum tone x) < 2147483648) ∧
    (s.bypass = false → ∃ t y, exec (.proc x) s = .next t ∧ t.responses = s.responses ++ [y] ∧
      y.toInt = truncate (value (s.mixSum s.synthesize.1 x)))

/-- R116, R150, R152, R156, R158: at weight 1.0 the output is the tone sample, at weight +0.0 it is the input. The
spec marks this as its own inference: "Exact ends of the weight range" (41_process.md section 6). -/
def Obligations.ExactEndsOfWeightRange : Prop :=
  ∀ (s : State) (x : Word), s.bypass = false →
    (s.wt = 0x3FF0000000000000 → s.wi = 0x0000000000000000 →
      ∃ t, exec (.proc x) s = .next t ∧ t.responses = s.responses ++ [s.synthesize.1]) ∧
    (s.wt = 0x0000000000000000 → s.wi = 0x3FF0000000000000 →
      ∃ t, exec (.proc x) s = .next t ∧ t.responses = s.responses ++ [x])

/-- R21, R140: `PHI` moves by `DI` a step and returns exactly after the multiples of 2^32 / gcd(d, 2^32) steps. The
spec marks the period as its own inference: "Exact period of the integer phase" (41_process.md section 6). -/
def Obligations.IntegerPhasePeriod : Prop :=
  ∀ (s : State) (xs : List Word), s.kind ≠ .sc → s.di ≠ 0 →
    ∃ t, execAll (xs.map .proc) s = .next t ∧
      t.phi = s.phi + BitVec.ofNat 32 (xs.length * s.di.toNat) ∧
      (t.phi = s.phi ↔ phasePeriod s.di ∣ xs.length)

/-- R115, R116: from `PHI` = 0 the square is `INT32_MAX` for the first `ceil(2^31 / d)` steps and `INT32_MIN` at the
next; at full weight the outputs are those. The spec marks this as its own inference: "Square-wave duty"
(41_process.md section 6; example E3). -/
def Obligations.SquareWaveDuty : Prop :=
  ∀ (s : State) (xs : List Word) (x : Word),
    s.kind = .sq → s.di ≠ 0 → s.phi = 0 → xs.length ≤ lowHalfSteps s.di →
    ∃ t, execAll (xs.map .proc) s = .next t ∧
      t.synthesize.1 = (if xs.length < lowHalfSteps s.di then int32Max else int32Min) ∧
      (s.wt = 0x3FF0000000000000 → s.wi = 0x0000000000000000 →
        t.responses = s.responses ++ List.replicate xs.length int32Max ∧
        (xs.length = lowHalfSteps s.di →
          ∃ u, exec (.proc x) t = .next u ∧ u.responses = t.responses ++ [int32Min]))

/-- R114, R181 row X8: a step of less than half the spacing of binary64 numbers at `PHF`, in the direction of
its sign, leaves `PHF` where it is. -/
def Obligations.ContinuousPhaseStops : Prop :=
  ∀ free x y : F64, isFinite x = true → isFinite y = true → 1 ≤ expField x → signBit x = signBit y →
    |value y| < 2 ^ ((expField x : Int) - 1076) → fadd free x y = x

/-! ### Whole-machine rules -/

/-- R20, R36: the phase accumulators are moved only by `PROC` and by a reset. -/
def Obligations.OnlyProcAndResetMovePhases : Prop :=
  ∀ s t : State, step s = .next t → (t.phi ≠ s.phi ∨ t.phf ≠ s.phf) →
    ∃ tr rest, s.pending = tr :: rest ∧
      (tr.rst = true ∨ ∃ c x, tr.cmd = some c ∧ decode c = .ok (.proc x))

/-- R44: only a `PROC` of kind sine-discrete that is no bypass reads the table, once, at `PHI[31:24]`. -/
def Obligations.TableReadOnlyBySineDiscrete : Prop :=
  ∀ s t : State, step s = .next t →
    t.tableReads = s.tableReads ∨
    (t.tableReads = s.tableReads ++ [s.phi.extractLsb' 24 8] ∧ s.kind = .sd ∧ s.bypass = false ∧
      ∃ c x rest, s.pending = ⟨false, some c⟩ :: rest ∧ decode c = .ok (.proc x))

/-- R181, R215: from a state in contract a transaction in contract leads to a state in contract, and no
draw shows in it: whatever the number of the next draw, the step is the same. That the draws are numbered is the
model's form, log entry 3. -/
def Obligations.ContractKeptAndNoDrawShows : Prop :=
  ∀ (s : State) (n : Nat), s.wasReset = true → StateInContract s →
    (∀ tr ∈ s.pending.head?, TransactionInContract tr) →
    ∃ t, step s = .next t ∧ StateInContract t ∧ t.wasReset = true ∧
      ∃ m, step { s with draws := n } = .next { t with draws := m }

/-- R34, R215: the reset state is in contract. -/
def Obligations.ResetInContract : Prop := StateInContract State.reset

/-- R215: a host that keeps the contract from reset on gets outputs that no draw can change. The number of the
first draw is the model's, log entry 3, and so are the steps on an empty queue that a run of more steps than
transactions takes, log entry 8. -/
def Obligations.ContractRunsAreSpecified : Prop :=
  ∀ (pending : List Transaction) (n k : Nat), (∀ tr ∈ pending, TransactionInContract tr) →
    ∃ t t', Host.Core.run core k { State.reset with pending := pending } = .next t ∧
      Host.Core.run core k { State.reset with pending := pending, draws := n } = .next t' ∧
      t.responses = t'.responses ∧ t.tableReads = t'.tableReads ∧ SameRegisters t t'

/-- R24, R25, R94, R111: the reset values of `WT`, `WI` and `KIND` show in no output. The spec marks this as its own
inference: "The reset values of `WT`, `WI` and `KIND` cannot be observed" (10_state.md section 5). -/
def Obligations.ResetWeightsUnobservable : Prop :=
  ∀ (program : List Instr) (wt wi : F64) (kind : Waveform),
    (observed (execAll program { State.reset with wt := wt, wi := wi, kind := kind })).map Observation.samples =
      (observed (runFromReset program)).map Observation.samples ∧
    (observed (runFromReset program)).isSome = true
end

