-- ==== Sys2Proof/Laws/Binary64.lean ====
section
/-! SUPPORT. The small lemmas of the binary64 definitions: fields of a pattern, what a packed pattern holds,
values as whole quanta, and the rounding of one significand. -/

namespace Sys2Proof.Machine

/-! ### Fields of a pattern (R146) -/

section Fields
variable (x : F64)

theorem expField_lt : expField x < 2048 := (x.extractLsb' 52 11).isLt

theorem fracField_lt : fracField x < 2 ^ 52 := (x.extractLsb' 0 52).isLt

theorem expField_eq : expField x = x.toNat / 2 ^ 52 % 2048 := by
  simp [expField, BitVec.extractLsb'_toNat, Nat.shiftRight_eq_div_pow]

theorem fracField_eq : fracField x = x.toNat % 2 ^ 52 := by
  simp [fracField, BitVec.extractLsb'_toNat]

theorem signBit_eq : signBit x = decide (2 ^ 63 ≤ x.toNat) := by
  simp only [signBit, BitVec.getLsbD, Nat.testBit_eq_decide_div_mod_eq]
  have := x.isLt
  exact decide_eq_decide.mpr (by omega)

/-- A pattern is its three fields. -/
theorem toNat_eq_fields :
    x.toNat = (if signBit x then 2 ^ 63 else 0) + expField x * 2 ^ 52 + fracField x := by
  rw [signBit_eq, expField_eq, fracField_eq]
  have := x.isLt
  by_cases h : 2 ^ 63 ≤ x.toNat
  · simp only [h, decide_true, if_true]; omega
  · simp only [h, decide_false, Bool.false_eq_true, if_false]; omega

end Fields

theorem eq_of_fields {x y : F64} (hs : signBit x = signBit y) (he : expField x = expField y)
    (hf : fracField x = fracField y) : x = y :=
  BitVec.eq_of_toNat_eq (by rw [toNat_eq_fields x, toNat_eq_fields y, hs, he, hf])

/-- Every datum is exactly one of NaN, infinity and finite. -/
theorem isFinite_eq (x : F64) : isFinite x = (!isNaN x && !isInf x) := by
  unfold isFinite isNaN isInf bne
  cases expField x == 2047 <;> cases fracField x == 0 <;> rfl

theorem not_isNaN_of_isFinite {x : F64} (h : isFinite x = true) : isNaN x = false := by
  rw [isFinite_eq] at h; simp_all

theorem not_isInf_of_isFinite {x : F64} (h : isFinite x = true) : isInf x = false := by
  rw [isFinite_eq] at h; simp_all

theorem isFinite_of_isZero {x : F64} (h : isZero x = true) : isFinite x = true := by
  simp only [isZero, Bool.and_eq_true, beq_iff_eq] at h
  simp [isFinite, h.1]

/-! ### Packed patterns -/

section Pack
variable (negative : Bool) {low : Nat} (h : low < 2 ^ 63)
include h

theorem toNat_packF64 : (packF64 negative low).toNat = (if negative then 2 ^ 63 else 0) + low := by
  unfold packF64
  rw [BitVec.toNat_ofNat]
  exact Nat.mod_eq_of_lt (by split <;> omega)

theorem signBit_packF64 : signBit (packF64 negative low) = negative := by
  rw [signBit_eq, toNat_packF64 negative h]
  cases negative <;> simp
  omega

theorem expField_packF64 : expField (packF64 negative low) = low / 2 ^ 52 := by
  rw [expField_eq, toNat_packF64 negative h]
  cases negative <;> simp <;> omega

theorem fracField_packF64 : fracField (packF64 negative low) = low % 2 ^ 52 := by
  rw [fracField_eq, toNat_packF64 negative h]
  cases negative <;> simp
  omega

end Pack

/-- A datum is the packing of its sign and its low 63 bits. -/
theorem packF64_self (x : F64) : packF64 (signBit x) (expField x * 2 ^ 52 + fracField x) = x := by
  have he := expField_lt x
  have hf := fracField_lt x
  have hl : expField x * 2 ^ 52 + fracField x < 2 ^ 63 := by omega
  apply BitVec.eq_of_toNat_eq
  rw [toNat_packF64 _ hl, toNat_eq_fields x]
  omega

theorem infLow_lt : infLow < 2 ^ 63 := by decide

/-- Below the pattern of infinity a packed pattern is finite. -/
theorem isFinite_packF64 (negative : Bool) {low : Nat} (h : low < infLow) :
    isFinite (packF64 negative low) = true := by
  have hl : low < 2 ^ 63 := Nat.lt_trans h infLow_lt
  simp only [isFinite, expField_packF64 negative hl, bne_iff_ne, ne_eq]
  unfold infLow at h
  omega

/-- A significand `m` of at most 53 bits at spacing `2^k`, packed as `roundLow` packs it, has magnitude
`m · 2^k`; a carry to `2^53` included. -/
theorem magnitude_packF64 (negative : Bool) {k m : Nat} (hm : m ≤ 2 ^ 53) (hk : k = 0 ∨ 2 ^ 52 ≤ m)
    (h : k * 2 ^ 52 + m < infLow) :
    magnitude (packF64 negative (k * 2 ^ 52 + m)) = m * 2 ^ k := by
  have hl : k * 2 ^ 52 + m < 2 ^ 63 := Nat.lt_trans h infLow_lt
  unfold magnitude
  rw [expField_packF64 negative hl, fracField_packF64 negative hl]
  rcases Nat.lt_or_ge m (2 ^ 52) with hlt | hge
  · have hk0 : k = 0 := by omega
    subst hk0
    have h1 : (0 * 2 ^ 52 + m) / 2 ^ 52 = 0 := by omega
    rw [if_pos h1]
    omega
  · rcases Nat.lt_or_ge m (2 ^ 53) with hlt | hge'
    · have h1 : (k * 2 ^ 52 + m) / 2 ^ 52 = k + 1 := by omega
      have h2 : (k * 2 ^ 52 + m) % 2 ^ 52 = m - 2 ^ 52 := by omega
      rw [h1, h2, if_neg (by omega), show 2 ^ 52 + (m - 2 ^ 52) = m by omega, Nat.add_sub_cancel]
    · have hm' : m = 2 ^ 53 := by omega
      subst hm'
      have h1 : (k * 2 ^ 52 + 2 ^ 53) / 2 ^ 52 = k + 2 := by omega
      have h2 : (k * 2 ^ 52 + 2 ^ 53) % 2 ^ 52 = 0 := by omega
      rw [h1, h2, if_neg (by omega), show k + 2 - 1 = k + 1 by omega, Nat.pow_succ]
      omega

/-! ### Values -/

/-- A finite datum's magnitude is a significand of at most 53 bits at the spacing of its exponent. -/
theorem magnitude_eq (x : F64) :
    magnitude x = (if expField x = 0 then fracField x else 2 ^ 52 + fracField x) * 2 ^ (expField x - 1) := by
  unfold magnitude
  split
  · next h => simp [h]
  · rfl

theorem quantaPerOne_pos : 0 < quantaPerOne := by
  unfold quantaPerOne
  positivity

theorem two_zpow_neg_natCast (n : Nat) : (2 : ℚ) ^ (-(n : Int)) = 1 / ((2 ^ n : Nat) : ℚ) := by
  rw [zpow_neg, zpow_natCast, one_div, Nat.cast_pow, Nat.cast_ofNat]

/-- The quantum: 2^-1074. -/
theorem quantum_eq : (2 : ℚ) ^ (-1074 : Int) = 1 / (quantaPerOne : ℚ) :=
  two_zpow_neg_natCast 1074

/-- R146 in quanta: the value of a datum is its number of quanta of 2^-1074. -/
theorem value_eq_quanta (x : F64) : value x = (quanta x : ℚ) / (quantaPerOne : ℚ) := by
  have hmag : (if expField x = 0 then (fracField x : ℚ) * 2 ^ (-1074 : Int)
      else (2 ^ 52 + (fracField x : ℚ)) * 2 ^ ((expField x : Int) - 1075)) =
      (magnitude x : ℚ) / (quantaPerOne : ℚ) := by
    unfold magnitude
    split
    · rw [quantum_eq, mul_one_div]
    · have hz : ((expField x : Int) - 1075) = ((expField x - 1 : Nat) : Int) + (-1074) := by omega
      rw [hz, zpow_add₀ (by norm_num), zpow_natCast, quantum_eq]
      push_cast
      ring
  unfold value quanta
  rw [hmag]
  split <;> push_cast <;> ring

theorem quanta_packF64 (negative : Bool) {low : Nat} (h : low < 2 ^ 63) :
    quanta (packF64 negative low) =
      if negative then -(magnitude (packF64 negative low) : Int) else magnitude (packF64 negative low) := by
  unfold quanta
  rw [signBit_packF64 negative h]

/-! ### Rounding one significand (R147) -/

/-- `roundHalfEven` is one of the two integers around the quotient. -/
theorem roundHalfEven_mem (n d : Nat) : roundHalfEven n d = n / d ∨ roundHalfEven n d = n / d + 1 := by
  unfold roundHalfEven
  split
  · exact Or.inl rfl
  · split
    · exact Or.inr rfl
    · rcases Nat.mod_two_eq_zero_or_one (n / d) with h | h <;> simp [h]

/-- The rounded quotient is within half of the quotient. -/
theorem roundHalfEven_near (n : Nat) {d : Nat} (hd : 0 < d) :
    2 * n ≤ 2 * (roundHalfEven n d * d) + d ∧ 2 * (roundHalfEven n d * d) ≤ 2 * n + d := by
  have hdiv := Nat.div_add_mod n d
  have hmod := Nat.mod_lt n hd
  have hcomm : n / d * d = d * (n / d) := Nat.mul_comm _ _
  unfold roundHalfEven
  split
  · omega
  · split
    · rw [Nat.add_mul]; omega
    · rcases Nat.mod_two_eq_zero_or_one (n / d) with h | h <;> rw [h, Nat.add_mul] <;> omega

/-- A whole quotient is not rounded. -/
theorem roundHalfEven_mul (q : Nat) {d : Nat} (hd : 0 < d) : roundHalfEven (q * d) d = q := by
  unfold roundHalfEven
  rw [Nat.mul_mod_left, Nat.mul_div_cancel q hd]
  simp [hd]

/-- Rounding is monotone in the numerator. -/
theorem roundHalfEven_mono {n m d : Nat} (h : n ≤ m) : roundHalfEven n d ≤ roundHalfEven m d := by
  have hq := Nat.div_le_div_right (c := d) h
  rcases Nat.lt_or_ge (n / d) (m / d) with hlt | hge
  · have h1 := roundHalfEven_mem n d
    have h2 := roundHalfEven_mem m d
    omega
  · have he : n / d = m / d := Nat.le_antisymm hq hge
    have hn := Nat.div_add_mod n d
    have hm := Nat.div_add_mod m d
    have hr : n % d ≤ m % d := by rw [he] at hn; omega
    unfold roundHalfEven
    rw [he]
    split
    · split
      · exact Nat.le_refl _
      · split <;> omega
    · split
      · rw [if_neg (by omega), if_pos (by omega)]
      · rw [if_neg (by omega)]
        split <;> omega

theorem roundLow_le (n d : Nat) : roundLow n d ≤ infLow := Nat.min_le_right _ _

/-- A magnitude that fits a significand at its own spacing is not rounded. -/
theorem roundLow_exact {k m d : Nat} (hd : 0 < d) (hm : m < 2 ^ 53) (hk : k = 0 ∨ 2 ^ 52 ≤ m)
    (h : k * 2 ^ 52 + m ≤ infLow) : roundLow (m * 2 ^ k * d) d = k * 2 ^ 52 + m := by
  have hlog : (m * 2 ^ k).log2 - 52 = k := by
    rcases hk with rfl | hge
    · rcases Nat.eq_zero_or_pos m with rfl | hpos
      · simp
      · have : (m * 2 ^ 0).log2 < 53 := by
          rw [Nat.pow_zero, Nat.mul_one]; exact (Nat.log2_lt (by omega)).mpr hm
        omega
    · have hne : m * 2 ^ k ≠ 0 := Nat.mul_ne_zero (by omega) (by positivity)
      have hl : 52 + k ≤ (m * 2 ^ k).log2 := by
        rw [Nat.le_log2 hne, Nat.pow_add]; exact Nat.mul_le_mul_right _ hge
      have hu : (m * 2 ^ k).log2 < 53 + k := by
        rw [Nat.log2_lt hne, Nat.pow_add]; exact Nat.mul_lt_mul_of_pos_right hm (by positivity)
      omega
  unfold roundLow
  rw [Nat.mul_div_cancel _ hd]
  simp only [hlog]
  rw [show m * 2 ^ k * d = m * (d * 2 ^ k) by ring, roundHalfEven_mul _ (by positivity)]
  exact Nat.min_eq_left h

/-- A finite datum's own magnitude rounds to its own pattern. -/
theorem roundLow_magnitude {x : F64} (h : isFinite x = true) {d : Nat} (hd : 0 < d) :
    roundLow (magnitude x * d) d = expField x * 2 ^ 52 + fracField x := by
  have he := expField_lt x
  have hf := fracField_lt x
  have hfin : expField x ≠ 2047 := by simpa [isFinite] using h
  rw [magnitude_eq]
  by_cases h0 : expField x = 0
  · rw [if_pos h0, roundLow_exact hd (by omega) (by omega) (by unfold infLow; omega)]
    omega
  · rw [if_neg h0, roundLow_exact hd (by omega) (by omega) (by unfold infLow; omega)]
    omega

/-! ### What `roundLow` gives (R147) -/

/-- The exponent of the spacing at `n / d`, in quanta. -/
def spacingLog (n d : Nat) : Nat := (n / d).log2 - 52

theorem roundLow_eq (n d : Nat) :
    roundLow n d = min (spacingLog n d * 2 ^ 52 + roundHalfEven n (d * 2 ^ spacingLog n d)) infLow := rfl

/-- The significand before rounding has at most 53 bits, and 53 of them above the smallest spacing. -/
theorem significand_bounds (n d : Nat) :
    n / (d * 2 ^ spacingLog n d) < 2 ^ 53 ∧
    (spacingLog n d = 0 ∨ 2 ^ 52 ≤ n / (d * 2 ^ spacingLog n d)) := by
  rw [← Nat.div_div_eq_div_mul]
  have hlt : n / d < 2 ^ ((n / d).log2 + 1) := Nat.lt_log2_self
  constructor
  · apply Nat.div_lt_of_lt_mul
    calc n / d < 2 ^ ((n / d).log2 + 1) := hlt
      _ ≤ 2 ^ (spacingLog n d + 53) := Nat.pow_le_pow_right (by decide) (by unfold spacingLog; omega)
      _ = 2 ^ spacingLog n d * 2 ^ 53 := Nat.pow_add _ _ _
  · rcases Nat.eq_zero_or_pos (spacingLog n d) with h | h
    · exact .inl h
    · refine .inr ((Nat.le_div_iff_mul_le (by positivity)).mpr ?_)
      have hne : n / d ≠ 0 := by
        intro h0
        unfold spacingLog at h
        simp [h0] at h
      rw [← Nat.pow_add]
      exact (Nat.le_log2 hne).mp (by unfold spacingLog at h ⊢; omega)

/-- The rounded significand is at most `2^53`, and at least `2^52` above the smallest spacing. -/
theorem roundedSignificand_bounds (n d : Nat) :
    roundHalfEven n (d * 2 ^ spacingLog n d) ≤ 2 ^ 53 ∧
    (spacingLog n d = 0 ∨ 2 ^ 52 ≤ roundHalfEven n (d * 2 ^ spacingLog n d)) := by
  obtain ⟨hu, hl⟩ := significand_bounds n d
  have hm := roundHalfEven_mem n (d * 2 ^ spacingLog n d)
  exact ⟨by omega, by omega⟩

/-- Below infinity the rounded datum is the rounded significand at its spacing. -/
theorem magnitude_roundLow (negative : Bool) {n d : Nat} (h : roundLow n d < infLow) :
    magnitude (packF64 negative (roundLow n d)) =
      roundHalfEven n (d * 2 ^ spacingLog n d) * 2 ^ spacingLog n d := by
  obtain ⟨hu, hl⟩ := roundedSignificand_bounds n d
  have he : roundLow n d = spacingLog n d * 2 ^ 52 + roundHalfEven n (d * 2 ^ spacingLog n d) := by
    rw [roundLow_eq] at h ⊢
    omega
  rw [he] at h ⊢
  exact magnitude_packF64 negative hu hl h

/-- The rounded magnitude is within half a spacing of `n / d`. -/
theorem magnitude_roundLow_near (negative : Bool) {n d : Nat} (hd : 0 < d) (h : roundLow n d < infLow) :
    2 * n ≤ 2 * (magnitude (packF64 negative (roundLow n d)) * d) + d * 2 ^ spacingLog n d ∧
    2 * (magnitude (packF64 negative (roundLow n d)) * d) ≤ 2 * n + d * 2 ^ spacingLog n d := by
  rw [magnitude_roundLow negative h]
  have hn := roundHalfEven_near n (d := d * 2 ^ spacingLog n d) (by positivity)
  rw [show roundHalfEven n (d * 2 ^ spacingLog n d) * 2 ^ spacingLog n d * d =
    roundHalfEven n (d * 2 ^ spacingLog n d) * (d * 2 ^ spacingLog n d) by ring]
  exact hn

/-- Rounding is monotone in the numerator. -/
theorem roundLow_mono {n m d : Nat} (h : n ≤ m) : roundLow n d ≤ roundLow m d := by
  have hq : n / d ≤ m / d := Nat.div_le_div_right h
  have hk : spacingLog n d ≤ spacingLog m d := by
    unfold spacingLog
    rcases Nat.eq_zero_or_pos (n / d) with h0 | h0
    · simp [h0]
    · have : (n / d).log2 ≤ (m / d).log2 :=
        (Nat.le_log2 (by omega)).mpr (Nat.le_trans (Nat.log2_self_le (by omega)) hq)
      omega
  rw [roundLow_eq, roundLow_eq]
  rcases Nat.lt_or_ge (spacingLog n d) (spacingLog m d) with hlt | hge
  · have h1 := (roundedSignificand_bounds n d).1
    have h2 := (roundedSignificand_bounds m d).2
    omega
  · have he : spacingLog n d = spacingLog m d := Nat.le_antisymm hk hge
    have h1 := roundHalfEven_mono (d := d * 2 ^ spacingLog m d) h
    rw [he]
    omega

/-- A common factor of numerator and denominator does not matter. -/
theorem roundHalfEven_scale (n d : Nat) {c : Nat} (hc : 0 < c) :
    roundHalfEven (n * c) (d * c) = roundHalfEven n d := by
  unfold roundHalfEven
  rw [Nat.mul_div_mul_right _ _ hc, Nat.mul_mod_mul_right, ← Nat.mul_assoc]
  simp only [Nat.mul_lt_mul_right hc]

theorem roundLow_scale (n d : Nat) {c : Nat} (hc : 0 < c) : roundLow (n * c) (d * c) = roundLow n d := by
  unfold roundLow
  rw [Nat.mul_div_mul_right _ _ hc]
  simp only [show d * c * 2 ^ ((n / d).log2 - 52) = d * 2 ^ ((n / d).log2 - 52) * c by ring,
    roundHalfEven_scale _ _ hc]

/-! ### The operations on finite data, and narrowing -/

section Finite
variable {x y : F64} (hx : isFinite x = true) (hy : isFinite y = true) (free : F64)
include hx hy

theorem fadd_finite : fadd free x y =
    if quanta x + quanta y = 0 then packF64 (signBit x && signBit y) 0
    else packF64 (decide (quanta x + quanta y < 0)) (roundLow (quanta x + quanta y).natAbs 1) := by
  simp [fadd, not_isNaN_of_isFinite hx, not_isNaN_of_isFinite hy, not_isInf_of_isFinite hx,
    not_isInf_of_isFinite hy]

theorem fmul_finite : fmul free x y =
    packF64 (signBit x != signBit y) (roundLow (magnitude x * magnitude y) quantaPerOne) := by
  simp [fmul, not_isNaN_of_isFinite hx, not_isNaN_of_isFinite hy, not_isInf_of_isFinite hx,
    not_isInf_of_isFinite hy]

theorem fdiv_finite (h : isZero y = false) : fdiv free x y =
    packF64 (signBit x != signBit y) (roundLow (magnitude x * quantaPerOne) (magnitude y)) := by
  simp [fdiv, not_isNaN_of_isFinite hx, not_isNaN_of_isFinite hy, not_isInf_of_isFinite hx,
    not_isInf_of_isFinite hy, h]

end Finite

/-- In range, narrowing divides the quanta by those of 1 and drops the rest (R158). -/
theorem f2i_of_narrowable (draw : Word) {v : F64} (h : narrowable v = true) :
    f2i draw v = BitVec.ofInt 32 ((quanta v).tdiv quantaPerOne) := if_pos h

/-- Out of range, narrowing is the draw (R158). -/
theorem f2i_of_not_narrowable (draw : Word) {v : F64} (h : narrowable v = false) : f2i draw v = draw :=
  if_neg (by simp [h])

/-! ### Where no NaN comes out, the free bits do not matter (R148) -/

/-- A finite sum's operands decide the result. -/
theorem fadd_free {x y : F64} (hx : isFinite x = true) (hy : isFinite y = true) (free free' : F64) :
    fadd free x y = fadd free' x y := by
  simp [fadd, not_isNaN_of_isFinite hx, not_isNaN_of_isFinite hy, not_isInf_of_isFinite hx,
    not_isInf_of_isFinite hy]

/-- A finite product's operands decide the result. -/
theorem fmul_free {x y : F64} (hx : isFinite x = true) (hy : isFinite y = true) (free free' : F64) :
    fmul free x y = fmul free' x y := by
  simp [fmul, not_isNaN_of_isFinite hx, not_isNaN_of_isFinite hy, not_isInf_of_isFinite hx,
    not_isInf_of_isFinite hy]

/-- The sign flip keeps a datum finite. -/
theorem isFinite_fneg (x : F64) : isFinite (fneg x) = isFinite x := by
  have h : expField (fneg x) = expField x := by
    unfold expField fneg
    congr 1
    apply BitVec.eq_of_getLsbD_eq
    intro i hi
    simp only [BitVec.getLsbD_extractLsb', BitVec.getLsbD_xor]
    have h0 : BitVec.getLsbD (0x8000000000000000 : F64) (52 + i) = false := by
      simp only [BitVec.getLsbD]
      exact (by decide : ∀ j < 11, Nat.testBit (0x8000000000000000 % 2 ^ 64) (52 + j) = false) i hi
    rw [h0, Bool.xor_false]
  unfold isFinite
  rw [h]

/-- A finite difference's operands decide the result. -/
theorem fsub_free {x y : F64} (hx : isFinite x = true) (hy : isFinite y = true) (free free' : F64) :
    fsub free x y = fsub free' x y :=
  fadd_free hx (by rw [isFinite_fneg, hy]) free free'

end Sys2Proof.Machine
end

