-- ==== Sys2Proof/Laws/Decode.lean ====
section
/-! SUPPORT. The fields of a packed command word, and a word from its fields (spec 30_encoding.md R61). -/

namespace Sys2Proof

section Fields
variable (rsv : BitVec 4) (op wf : BitVec 2) (a b : Word) (w : F64)

@[simp] theorem rsvField_packCommand : rsvField (packCommand rsv op wf a b w) = rsv := by
  unfold rsvField packCommand
  iterate 5 rw [BitVec.extractLsb'_append_eq_of_le (by decide)]
  exact BitVec.extractLsb'_eq_self

@[simp] theorem opField_packCommand : opField (packCommand rsv op wf a b w) = op := by
  unfold opField packCommand
  iterate 4 rw [BitVec.extractLsb'_append_eq_of_le (by decide)]
  rw [BitVec.extractLsb'_append_eq_of_add_le (by decide)]
  exact BitVec.extractLsb'_eq_self

@[simp] theorem wfField_packCommand : wfField (packCommand rsv op wf a b w) = wf := by
  unfold wfField packCommand
  iterate 3 rw [BitVec.extractLsb'_append_eq_of_le (by decide)]
  rw [BitVec.extractLsb'_append_eq_of_add_le (by decide)]
  exact BitVec.extractLsb'_eq_self

@[simp] theorem aField_packCommand : aField (packCommand rsv op wf a b w) = a := by
  unfold aField packCommand
  iterate 2 rw [BitVec.extractLsb'_append_eq_of_le (by decide)]
  rw [BitVec.extractLsb'_append_eq_of_add_le (by decide)]
  exact BitVec.extractLsb'_eq_self

@[simp] theorem bField_packCommand : bField (packCommand rsv op wf a b w) = b := by
  unfold bField packCommand
  rw [BitVec.extractLsb'_append_eq_of_le (by decide), BitVec.extractLsb'_append_eq_of_add_le (by decide)]
  exact BitVec.extractLsb'_eq_self

@[simp] theorem wField_packCommand : wField (packCommand rsv op wf a b w) = w := by
  unfold wField packCommand
  rw [BitVec.extractLsb'_append_eq_of_add_le (by decide)]
  exact BitVec.extractLsb'_eq_self

end Fields

/-- A command word is its six fields (R61). -/
theorem packCommand_fields (c : Command) :
    packCommand (rsvField c) (opField c) (wfField c) (aField c) (bField c) (wField c) = c := by
  unfold packCommand rsvField opField wfField aField bField wField
  rw [BitVec.extractLsb'_append_extractLsb'_eq_extractLsb' (by decide),
    BitVec.extractLsb'_append_extractLsb'_eq_extractLsb' (by decide),
    BitVec.extractLsb'_append_extractLsb'_eq_extractLsb' (by decide),
    BitVec.extractLsb'_append_extractLsb'_eq_extractLsb' (by decide),
    BitVec.extractLsb'_append_extractLsb'_eq_extractLsb' (by decide)]
  exact BitVec.extractLsb'_eq_self

/-- The header byte is `rsv`, `op` and `wf` (R61). -/
theorem headerByte_toNat (c : Command) :
    (headerByte c).toNat = (rsvField c).toNat * 16 + (opField c).toNat * 4 + (wfField c).toNat := by
  simp only [headerByte, rsvField, opField, wfField, BitVec.extractLsb'_toNat, Nat.shiftRight_eq_div_pow]
  have := c.isLt
  omega

end Sys2Proof
end

