-- ==== Sys2Proof/Laws/State.lean ====
section
/-! SUPPORT. One lemma per field of State for each named update, each true by unfolding the record. -/

namespace Sys2Proof.Machine

variable (s : State)

/-! ### `presentIndex`: The table port sees an index: only `tableReads` grows (R56). -/

@[simp] theorem State.presentIndex_phi (idx : Byte) : (s.presentIndex idx).phi = s.phi := rfl
@[simp] theorem State.presentIndex_phf (idx : Byte) : (s.presentIndex idx).phf = s.phf := rfl
@[simp] theorem State.presentIndex_di (idx : Byte) : (s.presentIndex idx).di = s.di := rfl
@[simp] theorem State.presentIndex_df (idx : Byte) : (s.presentIndex idx).df = s.df := rfl
@[simp] theorem State.presentIndex_wt (idx : Byte) : (s.presentIndex idx).wt = s.wt := rfl
@[simp] theorem State.presentIndex_wi (idx : Byte) : (s.presentIndex idx).wi = s.wi := rfl
@[simp] theorem State.presentIndex_kind (idx : Byte) : (s.presentIndex idx).kind = s.kind := rfl
@[simp] theorem State.presentIndex_wasReset (idx : Byte) : (s.presentIndex idx).wasReset = s.wasReset := rfl
@[simp] theorem State.presentIndex_pending (idx : Byte) : (s.presentIndex idx).pending = s.pending := rfl
@[simp] theorem State.presentIndex_responses (idx : Byte) : (s.presentIndex idx).responses = s.responses := rfl
@[simp] theorem State.presentIndex_tableReads (idx : Byte) : (s.presentIndex idx).tableReads = s.tableReads ++ [idx] := rfl
@[simp] theorem State.presentIndex_draws (idx : Byte) : (s.presentIndex idx).draws = s.draws := rfl

/-! ### `advancePhi`: The integer phase advances (R21). -/

@[simp] theorem State.advancePhi_phi : (s.advancePhi).phi = phaseAdd s.phi s.di := rfl
@[simp] theorem State.advancePhi_phf : (s.advancePhi).phf = s.phf := rfl
@[simp] theorem State.advancePhi_di : (s.advancePhi).di = s.di := rfl
@[simp] theorem State.advancePhi_df : (s.advancePhi).df = s.df := rfl
@[simp] theorem State.advancePhi_wt : (s.advancePhi).wt = s.wt := rfl
@[simp] theorem State.advancePhi_wi : (s.advancePhi).wi = s.wi := rfl
@[simp] theorem State.advancePhi_kind : (s.advancePhi).kind = s.kind := rfl
@[simp] theorem State.advancePhi_wasReset : (s.advancePhi).wasReset = s.wasReset := rfl
@[simp] theorem State.advancePhi_pending : (s.advancePhi).pending = s.pending := rfl
@[simp] theorem State.advancePhi_responses : (s.advancePhi).responses = s.responses := rfl
@[simp] theorem State.advancePhi_tableReads : (s.advancePhi).tableReads = s.tableReads := rfl
@[simp] theorem State.advancePhi_draws : (s.advancePhi).draws = s.draws := rfl

/-! ### `advancePhf`: The floating phase advances (R22). -/

@[simp] theorem State.advancePhf_phi : (s.advancePhf).phi = s.phi := rfl
@[simp] theorem State.advancePhf_phf : (s.advancePhf).phf = fadd (s.drawNaN .phaseFloat) s.phf s.df := rfl
@[simp] theorem State.advancePhf_di : (s.advancePhf).di = s.di := rfl
@[simp] theorem State.advancePhf_df : (s.advancePhf).df = s.df := rfl
@[simp] theorem State.advancePhf_wt : (s.advancePhf).wt = s.wt := rfl
@[simp] theorem State.advancePhf_wi : (s.advancePhf).wi = s.wi := rfl
@[simp] theorem State.advancePhf_kind : (s.advancePhf).kind = s.kind := rfl
@[simp] theorem State.advancePhf_wasReset : (s.advancePhf).wasReset = s.wasReset := rfl
@[simp] theorem State.advancePhf_pending : (s.advancePhf).pending = s.pending := rfl
@[simp] theorem State.advancePhf_responses : (s.advancePhf).responses = s.responses := rfl
@[simp] theorem State.advancePhf_tableReads : (s.advancePhf).tableReads = s.tableReads := rfl
@[simp] theorem State.advancePhf_draws : (s.advancePhf).draws = s.draws := rfl

/-! ### `respond`: The response port returns a word (R60). -/

@[simp] theorem State.respond_phi (v : Word) : (s.respond v).phi = s.phi := rfl
@[simp] theorem State.respond_phf (v : Word) : (s.respond v).phf = s.phf := rfl
@[simp] theorem State.respond_di (v : Word) : (s.respond v).di = s.di := rfl
@[simp] theorem State.respond_df (v : Word) : (s.respond v).df = s.df := rfl
@[simp] theorem State.respond_wt (v : Word) : (s.respond v).wt = s.wt := rfl
@[simp] theorem State.respond_wi (v : Word) : (s.respond v).wi = s.wi := rfl
@[simp] theorem State.respond_kind (v : Word) : (s.respond v).kind = s.kind := rfl
@[simp] theorem State.respond_wasReset (v : Word) : (s.respond v).wasReset = s.wasReset := rfl
@[simp] theorem State.respond_pending (v : Word) : (s.respond v).pending = s.pending := rfl
@[simp] theorem State.respond_responses (v : Word) : (s.respond v).responses = s.responses ++ [v] := rfl
@[simp] theorem State.respond_tableReads (v : Word) : (s.respond v).tableReads = s.tableReads := rfl
@[simp] theorem State.respond_draws (v : Word) : (s.respond v).draws = s.draws := rfl

/-! ### `setMix`: What every configure writes (R94). -/

@[simp] theorem State.setMix_phi (kind : Waveform) (w : F64) : (s.setMix kind w).phi = s.phi := rfl
@[simp] theorem State.setMix_phf (kind : Waveform) (w : F64) : (s.setMix kind w).phf = s.phf := rfl
@[simp] theorem State.setMix_di (kind : Waveform) (w : F64) : (s.setMix kind w).di = s.di := rfl
@[simp] theorem State.setMix_df (kind : Waveform) (w : F64) : (s.setMix kind w).df = s.df := rfl
@[simp] theorem State.setMix_wt (kind : Waveform) (w : F64) : (s.setMix kind w).wt = w := rfl
@[simp] theorem State.setMix_wi (kind : Waveform) (w : F64) : (s.setMix kind w).wi = fsub (s.drawNaN .inputWeight) onePointZero w := rfl
@[simp] theorem State.setMix_kind (kind : Waveform) (w : F64) : (s.setMix kind w).kind = kind := rfl
@[simp] theorem State.setMix_wasReset (kind : Waveform) (w : F64) : (s.setMix kind w).wasReset = s.wasReset := rfl
@[simp] theorem State.setMix_pending (kind : Waveform) (w : F64) : (s.setMix kind w).pending = s.pending := rfl
@[simp] theorem State.setMix_responses (kind : Waveform) (w : F64) : (s.setMix kind w).responses = s.responses := rfl
@[simp] theorem State.setMix_tableReads (kind : Waveform) (w : F64) : (s.setMix kind w).tableReads = s.tableReads := rfl
@[simp] theorem State.setMix_draws (kind : Waveform) (w : F64) : (s.setMix kind w).draws = s.draws := rfl

/-! ### `setDi`: The integer delta is written (R24). -/

@[simp] theorem State.setDi_phi (d : Byte) : (s.setDi d).phi = s.phi := rfl
@[simp] theorem State.setDi_phf (d : Byte) : (s.setDi d).phf = s.phf := rfl
@[simp] theorem State.setDi_di (d : Byte) : (s.setDi d).di = d := rfl
@[simp] theorem State.setDi_df (d : Byte) : (s.setDi d).df = s.df := rfl
@[simp] theorem State.setDi_wt (d : Byte) : (s.setDi d).wt = s.wt := rfl
@[simp] theorem State.setDi_wi (d : Byte) : (s.setDi d).wi = s.wi := rfl
@[simp] theorem State.setDi_kind (d : Byte) : (s.setDi d).kind = s.kind := rfl
@[simp] theorem State.setDi_wasReset (d : Byte) : (s.setDi d).wasReset = s.wasReset := rfl
@[simp] theorem State.setDi_pending (d : Byte) : (s.setDi d).pending = s.pending := rfl
@[simp] theorem State.setDi_responses (d : Byte) : (s.setDi d).responses = s.responses := rfl
@[simp] theorem State.setDi_tableReads (d : Byte) : (s.setDi d).tableReads = s.tableReads := rfl
@[simp] theorem State.setDi_draws (d : Byte) : (s.setDi d).draws = s.draws := rfl

/-! ### `setDf`: The floating delta is written (R25). -/

@[simp] theorem State.setDf_phi (d : F64) : (s.setDf d).phi = s.phi := rfl
@[simp] theorem State.setDf_phf (d : F64) : (s.setDf d).phf = s.phf := rfl
@[simp] theorem State.setDf_di (d : F64) : (s.setDf d).di = s.di := rfl
@[simp] theorem State.setDf_df (d : F64) : (s.setDf d).df = d := rfl
@[simp] theorem State.setDf_wt (d : F64) : (s.setDf d).wt = s.wt := rfl
@[simp] theorem State.setDf_wi (d : F64) : (s.setDf d).wi = s.wi := rfl
@[simp] theorem State.setDf_kind (d : F64) : (s.setDf d).kind = s.kind := rfl
@[simp] theorem State.setDf_wasReset (d : F64) : (s.setDf d).wasReset = s.wasReset := rfl
@[simp] theorem State.setDf_pending (d : F64) : (s.setDf d).pending = s.pending := rfl
@[simp] theorem State.setDf_responses (d : F64) : (s.setDf d).responses = s.responses := rfl
@[simp] theorem State.setDf_tableReads (d : F64) : (s.setDf d).tableReads = s.tableReads := rfl
@[simp] theorem State.setDf_draws (d : F64) : (s.setDf d).draws = s.draws := rfl

/-! ### `applyReset`: The reset event (R34, R210). -/

@[simp] theorem State.applyReset_phi : (s.applyReset).phi = 0x00000000 := rfl
@[simp] theorem State.applyReset_phf : (s.applyReset).phf = 0x0000000000000000 := rfl
@[simp] theorem State.applyReset_di : (s.applyReset).di = 0x00 := rfl
@[simp] theorem State.applyReset_df : (s.applyReset).df = 0x0000000000000000 := rfl
@[simp] theorem State.applyReset_wt : (s.applyReset).wt = 0x0000000000000000 := rfl
@[simp] theorem State.applyReset_wi : (s.applyReset).wi = 0x3FF0000000000000 := rfl
@[simp] theorem State.applyReset_kind : (s.applyReset).kind = .sd := rfl
@[simp] theorem State.applyReset_wasReset : (s.applyReset).wasReset = true := rfl
@[simp] theorem State.applyReset_pending : (s.applyReset).pending = s.pending := rfl
@[simp] theorem State.applyReset_responses : (s.applyReset).responses = s.responses := rfl
@[simp] theorem State.applyReset_tableReads : (s.applyReset).tableReads = s.tableReads := rfl
@[simp] theorem State.applyReset_draws : (s.applyReset).draws = s.draws := rfl

/-! ### `take`: A transaction leaves the queue (R60). -/

@[simp] theorem State.take_phi (rest : List Transaction) : (s.take rest).phi = s.phi := rfl
@[simp] theorem State.take_phf (rest : List Transaction) : (s.take rest).phf = s.phf := rfl
@[simp] theorem State.take_di (rest : List Transaction) : (s.take rest).di = s.di := rfl
@[simp] theorem State.take_df (rest : List Transaction) : (s.take rest).df = s.df := rfl
@[simp] theorem State.take_wt (rest : List Transaction) : (s.take rest).wt = s.wt := rfl
@[simp] theorem State.take_wi (rest : List Transaction) : (s.take rest).wi = s.wi := rfl
@[simp] theorem State.take_kind (rest : List Transaction) : (s.take rest).kind = s.kind := rfl
@[simp] theorem State.take_wasReset (rest : List Transaction) : (s.take rest).wasReset = s.wasReset := rfl
@[simp] theorem State.take_pending (rest : List Transaction) : (s.take rest).pending = rest := rfl
@[simp] theorem State.take_responses (rest : List Transaction) : (s.take rest).responses = s.responses := rfl
@[simp] theorem State.take_tableReads (rest : List Transaction) : (s.take rest).tableReads = s.tableReads := rfl
@[simp] theorem State.take_draws (rest : List Transaction) : (s.take rest).draws = s.draws + 1 := rfl

/-! ### `present`: A transaction is put before all others. -/

@[simp] theorem State.present_phi (t : Transaction) : (s.present t).phi = s.phi := rfl
@[simp] theorem State.present_phf (t : Transaction) : (s.present t).phf = s.phf := rfl
@[simp] theorem State.present_di (t : Transaction) : (s.present t).di = s.di := rfl
@[simp] theorem State.present_df (t : Transaction) : (s.present t).df = s.df := rfl
@[simp] theorem State.present_wt (t : Transaction) : (s.present t).wt = s.wt := rfl
@[simp] theorem State.present_wi (t : Transaction) : (s.present t).wi = s.wi := rfl
@[simp] theorem State.present_kind (t : Transaction) : (s.present t).kind = s.kind := rfl
@[simp] theorem State.present_wasReset (t : Transaction) : (s.present t).wasReset = s.wasReset := rfl
@[simp] theorem State.present_pending (t : Transaction) : (s.present t).pending = t :: s.pending := rfl
@[simp] theorem State.present_responses (t : Transaction) : (s.present t).responses = s.responses := rfl
@[simp] theorem State.present_tableReads (t : Transaction) : (s.present t).tableReads = s.tableReads := rfl
@[simp] theorem State.present_draws (t : Transaction) : (s.present t).draws = s.draws := rfl

/-! ### `presentCommand`: A command word is presented next. -/

@[simp] theorem State.presentCommand_phi (c : Command) : (s.presentCommand c).phi = s.phi := rfl
@[simp] theorem State.presentCommand_phf (c : Command) : (s.presentCommand c).phf = s.phf := rfl
@[simp] theorem State.presentCommand_di (c : Command) : (s.presentCommand c).di = s.di := rfl
@[simp] theorem State.presentCommand_df (c : Command) : (s.presentCommand c).df = s.df := rfl
@[simp] theorem State.presentCommand_wt (c : Command) : (s.presentCommand c).wt = s.wt := rfl
@[simp] theorem State.presentCommand_wi (c : Command) : (s.presentCommand c).wi = s.wi := rfl
@[simp] theorem State.presentCommand_kind (c : Command) : (s.presentCommand c).kind = s.kind := rfl
@[simp] theorem State.presentCommand_wasReset (c : Command) : (s.presentCommand c).wasReset = true := rfl
@[simp] theorem State.presentCommand_pending (c : Command) : (s.presentCommand c).pending = ⟨false, some c⟩ :: s.pending := rfl
@[simp] theorem State.presentCommand_responses (c : Command) : (s.presentCommand c).responses = s.responses := rfl
@[simp] theorem State.presentCommand_tableReads (c : Command) : (s.presentCommand c).tableReads = s.tableReads := rfl
@[simp] theorem State.presentCommand_draws (c : Command) : (s.presentCommand c).draws = s.draws := rfl

end Sys2Proof.Machine
end

