-- ==== Sys2Proof/Laws/Ops.lean ====
section
/-! SUPPORT. What each shared operation can do, said once: the draws, the synthesis of a tone sample, one sample,
and each instruction's execution. -/

namespace Sys2Proof.Machine

variable (s : State)

/-! ### Draws are functions of the number of draws alone (R9) -/

theorem State.drawU8_eq (site : DrawSite) : s.drawU8 site = Config.drawU8 site s.draws := rfl
theorem State.drawI32_eq (site : DrawSite) : s.drawI32 site = Config.drawI32 site s.draws := rfl
theorem State.drawF64_eq (site : DrawSite) : s.drawF64 site = Config.drawF64 site s.draws := rfl
theorem State.drawNaN_eq (site : DrawSite) : s.drawNaN site = Config.drawNaN site s.draws := rfl

/-! ### Synthesis (R112) -/

theorem State.synthesize_sd (h : s.kind = .sd) : s.synthesize = s.synthSd := by
  unfold State.synthesize; rw [h]

theorem State.synthesize_sc (h : s.kind = .sc) : s.synthesize = s.synthSc := by
  unfold State.synthesize; rw [h]

theorem State.synthesize_sq (h : s.kind = .sq) : s.synthesize = s.synthSq := by
  unfold State.synthesize; rw [h]

/-- The state after synthesis is one of three (R112): the table port and `PHI`, `PHF`, or `PHI` alone. -/
theorem State.synthesize_state :
    (s.kind = .sd ∧ s.synthesize.2 = (s.presentIndex (topByte s.phi)).advancePhi) ∨
    (s.kind = .sc ∧ s.synthesize.2 = s.advancePhf) ∨
    (s.kind = .sq ∧ s.synthesize.2 = s.advancePhi) := by
  cases h : s.kind
  · exact .inl ⟨rfl, by rw [s.synthesize_sd h]; rfl⟩
  · exact .inr (.inl ⟨rfl, by rw [s.synthesize_sc h]; rfl⟩)
  · exact .inr (.inr ⟨rfl, by rw [s.synthesize_sq h]; rfl⟩)

/-- Synthesis keeps every control register and the host's side (R37). -/
theorem State.synthesize_keeps :
    s.synthesize.2.di = s.di ∧ s.synthesize.2.df = s.df ∧ s.synthesize.2.wt = s.wt ∧
    s.synthesize.2.wi = s.wi ∧ s.synthesize.2.kind = s.kind ∧ s.synthesize.2.wasReset = s.wasReset ∧
    s.synthesize.2.pending = s.pending ∧ s.synthesize.2.responses = s.responses ∧
    s.synthesize.2.draws = s.draws := by
  rcases s.synthesize_state with ⟨-, h⟩ | ⟨-, h⟩ | ⟨-, h⟩ <;> rw [h] <;> simp

/-! ### One sample (R110) -/

theorem State.process_of_bypass (x : Word) (h : s.bypass = true) : s.process x = s.respond x := by
  unfold State.process; rw [if_pos h]

theorem State.process_of_not_bypass (x : Word) (h : s.bypass = false) :
    s.process x = s.synthesize.2.respond (s.mix s.synthesize.1 x) := by
  unfold State.process; rw [if_neg (by simp [h])]

/-! ### Each instruction's execution -/

section Exec
variable (f r : Word) (w : F64)

theorem exec_proc (x : Word) : exec (.proc x) s = .next (s.process x) := rfl

theorem exec_cfgl : exec (.cfgl f w) s = .next ((s.setMix .sd w).setDi (topByte f)) := rfl

theorem exec_cfgSd : exec (.cfgSd f w r) s =
    .next ((s.setMix .sd w).setDi (integerDelta (s.drawU8 .deltaInteger) f r)) := rfl

theorem exec_cfgSc : exec (.cfgSc f w r) s =
    .next ((s.setMix .sc w).setDf
      (floatDelta (s.drawF64 .deltaFloat) (s.drawNaN .deltaProduct) (s.drawNaN .deltaQuotient) f r)) := rfl

theorem exec_cfgSq : exec (.cfgSq f w r) s =
    .next ((s.setMix .sq w).setDi (integerDelta (s.drawU8 .deltaInteger) f r)) := rfl

end Exec

/-- What any instruction leaves of the host's side (R37, R60): the queue, the reset latch and the number of
draws stay; at most one word is returned. -/
theorem exec_keeps {i : Instr} {t : State} (h : exec i s = .next t) :
    t.pending = s.pending ∧ t.wasReset = s.wasReset ∧ t.draws = s.draws ∧
    (t.responses = s.responses ∨ ∃ y, t.responses = s.responses ++ [y]) := by
  cases i with
  | proc x =>
    injection h with h
    subst h
    cases hb : s.bypass
    · rw [s.process_of_not_bypass x hb]
      obtain ⟨-, -, -, -, -, hw, hp, hr, hd⟩ := s.synthesize_keeps
      simp [hw, hp, hr, hd]
    · rw [s.process_of_bypass x hb]
      simp
  | cfgl f w => injection h with h; subst h; simp
  | cfgSd f w r => injection h with h; subst h; simp
  | cfgSc f w r => injection h with h; subst h; simp
  | cfgSq f w r => injection h with h; subst h; simp

/-! ### The step (R51, R60) -/

/-- A command that answers a next state was presented after a reset and decodes (R68, R212). -/
theorem runCommand_cases {c : Command} {t : State} (h : runCommand c s = .next t) :
    s.wasReset = true ∧ ∃ i, decode c = .ok i ∧ exec i s = .next t := by
  unfold runCommand at h
  split at h
  · next hw =>
    split at h
    · next i hd => exact ⟨hw, i, hd, h⟩
    · cases h
  · cases h

/-- Everything a step that answers a next state can have done: nothing presented, a reset, an empty transaction,
or one decoded command. -/
theorem step_cases {t : State} (h : step s = .next t) :
    (s.pending = [] ∧ t = s) ∨
    (∃ tr rest, s.pending = tr :: rest ∧ tr.rst = true ∧ t = (s.take rest).applyReset) ∨
    (∃ rest, s.pending = ⟨false, none⟩ :: rest ∧ t = s.take rest) ∨
    (∃ c rest i, s.pending = ⟨false, some c⟩ :: rest ∧ s.wasReset = true ∧ decode c = .ok i ∧
      exec i (s.take rest) = .next t) := by
  unfold step at h
  cases hp : s.pending with
  | nil => rw [hp] at h; injection h with h; exact .inl ⟨rfl, h.symm⟩
  | cons tr rest =>
    rw [hp] at h
    obtain ⟨rst, cmd⟩ := tr
    cases rst with
    | true => injection h with h; exact .inr (.inl ⟨_, rest, rfl, rfl, h.symm⟩)
    | false =>
      cases cmd with
      | none => injection h with h; exact .inr (.inr (.inl ⟨rest, rfl, h.symm⟩))
      | some c =>
        obtain ⟨hw, i, hd, he⟩ := runCommand_cases (s.take rest) h
        exact .inr (.inr (.inr ⟨c, rest, i, rfl, hw, hd, he⟩))

end Sys2Proof.Machine
end

