-- ==== Sys2Proof/Laws/PerInstr.lean ====
section
/-! SUPPORT. One lemma per instruction: the encoder's header byte is the canonical header byte of the opcode
table (spec 30_encoding.md R62), and the ignored fields are zero (R72). -/

namespace Sys2Proof.Laws.CanonicalHeader

/-- The canonical header byte of an instruction (R62). -/
def canonicalHeader : Instr → Byte
  | .proc _ => 0x00
  | .cfgl _ _ => 0x04
  | .cfgSd _ _ _ => 0x08
  | .cfgSc _ _ _ => 0x09
  | .cfgSq _ _ _ => 0x0A

/-- The encoding begins with the instruction's canonical header byte, which is legal. -/
def Statement (i : Instr) : Prop :=
  headerByte (encode i) = canonicalHeader i ∧ headerLegal (headerByte (encode i)) = true

theorem of_toNat {i : Instr} (h : (headerByte (encode i)).toNat = (canonicalHeader i).toNat)
    (hl : headerLegal (canonicalHeader i) = true) : Statement i := by
  have he : headerByte (encode i) = canonicalHeader i := BitVec.eq_of_toNat_eq h
  exact ⟨he, he ▸ hl⟩

theorem proc (sampleIn : Word) : Statement (.proc sampleIn) :=
  of_toNat (by rw [headerByte_toNat]; simp [encode, canonicalHeader]) rfl

theorem cfgl (targetDelta : Word) (mixWeight : F64) : Statement (.cfgl targetDelta mixWeight) :=
  of_toNat (by rw [headerByte_toNat]; simp [encode, canonicalHeader]) rfl

theorem cfgSd (frequency : Word) (mixWeight : F64) (sampleRate : Word) :
    Statement (.cfgSd frequency mixWeight sampleRate) :=
  of_toNat (by rw [headerByte_toNat]; simp [encode, canonicalHeader, Waveform.code]) rfl

theorem cfgSc (frequency : Word) (mixWeight : F64) (sampleRate : Word) :
    Statement (.cfgSc frequency mixWeight sampleRate) :=
  of_toNat (by rw [headerByte_toNat]; simp [encode, canonicalHeader, Waveform.code]) rfl

theorem cfgSq (frequency : Word) (mixWeight : F64) (sampleRate : Word) :
    Statement (.cfgSq frequency mixWeight sampleRate) :=
  of_toNat (by rw [headerByte_toNat]; simp [encode, canonicalHeader, Waveform.code]) rfl

end Sys2Proof.Laws.CanonicalHeader
end

