-- ==== Sys2Proof/Laws/Runs.lean ====
section
/-! SUPPORT. What a step of a run and a run can do (spec 00_scope.md R10, R9). -/

namespace Sys2Proof.Machine

/-- A step of a run always completes, keeps the host's side and moves the draws on (R9, R180). -/
theorem execStep_next (i : Instr) (s : State) :
    ∃ t, execStep i s = .next t ∧ t.draws = s.draws + 1 ∧ t.pending = s.pending ∧ t.wasReset = s.wasReset := by
  obtain ⟨t, ht⟩ : ∃ t, execStep i s = .next t := by cases i <;> exact ⟨_, rfl⟩
  obtain ⟨hp, hw, hd, -⟩ := exec_keeps _ ht
  exact ⟨t, ht, hd, hp, hw⟩

@[simp] theorem execAll_nil (s : State) : execAll [] s = .next s := rfl

theorem execAll_cons {i : Instr} {s t : State} (h : execStep i s = .next t) (program : List Instr) :
    execAll (i :: program) s = execAll program t := by
  simp only [execAll, h]

theorem execAll_append {p : List Instr} {s t : State} (h : execAll p s = .next t) (q : List Instr) :
    execAll (p ++ q) s = execAll q t := by
  induction p generalizing s with
  | nil => cases h; rfl
  | cons i p ih =>
    obtain ⟨u, hu, -⟩ := execStep_next i s
    rw [execAll_cons hu] at h
    rw [List.cons_append, execAll_cons hu, ih h]

/-- Every run completes, and each of its commands has taken draws of its own (R9). -/
theorem execAll_next (program : List Instr) (s : State) :
    ∃ t, execAll program s = .next t ∧ t.draws = s.draws + program.length := by
  induction program generalizing s with
  | nil => exact ⟨s, rfl, rfl⟩
  | cons i program ih =>
    obtain ⟨u, hu, hd, -⟩ := execStep_next i s
    obtain ⟨t, ht, hn⟩ := ih u
    exact ⟨t, execAll_cons hu program ▸ ht, by rw [hn, hd, List.length_cons]; omega⟩

/-! ### Runs of the machine itself (R51, R60) -/

/-- No sample reads or writes what the host has still to present (R51). -/
theorem process_pending (s : State) (p : List Transaction) (x : Word) :
    State.process { s with pending := p } x = { s.process x with pending := p } := by
  have hs : State.synthesize { s with pending := p } =
      (s.synthesize.1, { s.synthesize.2 with pending := p }) := by
    rcases s with ⟨_, _, _, _, _, _, _ | _ | _, _, _, _, _, _⟩ <;> rfl
  have hb : State.bypass { s with pending := p } = s.bypass := rfl
  unfold State.process
  rw [hb, hs]
  cases s.bypass <;> rfl

/-- No instruction reads or writes what the host has still to present (R51). -/
theorem exec_pending {i : Instr} {s t : State} (p : List Transaction) (h : exec i s = .next t) :
    exec i { s with pending := p } = .next { t with pending := p } := by
  cases i with
  | proc x => cases h; exact congrArg _ (process_pending s p x)
  | _ => cases h; rfl

/-- A run of the machine goes on from the state that its first step answers. -/
theorem core_run_of_step {s t : State} (h : step s = .next t) (k : Nat) :
    Host.Core.run core (k + 1) s = Host.Core.run core k t := by
  have hc : core.step s = .next t := h
  simp only [Host.Core.run, hc]

end Sys2Proof.Machine
end

