-- ==== Sys2Proof/Tests/Slice0.lean ====
section
/-! SUPPORT. Tests. Expected values come from spec 95_test_vectors.md and 30_encoding.md R76 (each test names its
vector), none from the model. Below them the witnesses of the statements' hypotheses. -/

namespace Sys2Proof.Tests

open Sys2Proof.Machine

/-! ### Well-formedness smoke: an ill-formed term for each check -/

/-- A frame of 17 bytes with a header and zeros. -/
def frame (header : Byte) : List Byte := header :: List.replicate 16 0

theorem test_wf_legal_frame : frameWellFormed (frame 0x0A) = true := by decide
theorem test_wf_short_frame_refused : frameWellFormed ((frame 0x00).take 16) = false := by decide
theorem test_wf_long_frame_refused : frameWellFormed (frame 0x00 ++ [0]) = false := by decide
theorem test_wf_reserved_waveform_refused : frameWellFormed (frame 0x0B) = false := by decide
theorem test_wf_reserved_operation_refused : frameWellFormed (frame 0x0C) = false := by decide
theorem test_wf_reserved_bits_refused : frameWellFormed (frame 0x10) = false := by decide

/-! ### Decoder: words written out from R61, R76 and section 3.1 -/

/-- A frame from its parts as section 3.1 writes words: header, `a`, `b`, `w`. -/
def word (header : Byte) (a b : Word) (w : F64) : Command :=
  BitVec.ofNat 136 (header.toNat * 2 ^ 128 + a.toNat * 2 ^ 96 + b.toNat * 2 ^ 64 + w.toNat)

theorem test_dec_1_proc : decode 0x00000003E8000000000000000000000000 = .ok (.proc 1000) := by decide
theorem test_dec_2_proc_ignores : decode 0x03FFFFFFFFDEADBEEF7FF8000000000001 =
    .ok (.proc (BitVec.ofInt 32 (-1))) := by decide
theorem test_dec_4_cfgl : decode 0x0412345678000000003FD0000000000000 =
    .ok (.cfgl 0x12345678 0x3FD0000000000000) := by decide
theorem test_dec_5_cfgl_ignores : decode 0x07FF000000FFFFFFFF3FF0000000000000 =
    .ok (.cfgl 0xFF000000 0x3FF0000000000000) := by decide
theorem test_dec_6_cfgSd : decode 0x08000003E80000BB803FE0000000000000 =
    .ok (.cfgSd 1000 0x3FE0000000000000 48000) := by decide
theorem test_dec_7_cfgSc : decode 0x09000003E80000BB803FF0000000000000 =
    .ok (.cfgSc 1000 0x3FF0000000000000 48000) := by decide
theorem test_dec_8_cfgSq : decode 0x0A000003E80000BB803FF0000000000000 =
    .ok (.cfgSq 1000 0x3FF0000000000000 48000) := by decide
theorem test_dec_9_invalid : decode 0x0B000003E80000BB803FF0000000000000 = .error .reservedWaveform := by decide
theorem test_dec_11_invalid : decode 0x0F00000000000000000000000000000000 = .error .reservedOperation := by decide
theorem test_dec_13_invalid : decode 0x80000003E8000000000000000000000000 = .error .reservedBits := by decide
theorem test_dec_14_invalid : decode 0xFFFFFFFFFFFFFFFFFFFFFFFFFFFFFFFFFF = .error .reservedBits := by decide

/-- R76: the bytes of `CFG.SD 1000, 0.5, 48000`. -/
theorem test_enc_cfgSd_bytes : commandBytes (encode (.cfgSd 1000 0x3FE0000000000000 48000)) =
    [0x08, 0x00, 0x00, 0x03, 0xE8, 0x00, 0x00, 0xBB, 0x80, 0x3F, 0xE0, 0, 0, 0, 0, 0, 0] := by decide

/-- The host's numbering of the same word, and a frame too short. -/
theorem test_table_word : decodeTableWord 136 0x09000003E80000BB803FF0000000000000 =
    some (.cfgSc 1000 0x3FF0000000000000 48000) := by decide
theorem test_short_frame_rejected : decodeFrame [0x00, 0x00] = .error .wrongLength := by decide

/-! ### Arithmetic -/

/-- V-CSC-1, the product: `fmul(TWO_PI, 1000.0)`. -/
theorem test_fmul_two_pi : fmul 0 twoPi 0x408F400000000000 = 0x40B88B2F704A9409 := by decide +kernel
/-- V-CSC-5: the smallest non-zero delta. -/
theorem test_fdiv_smallest : fdiv 0 twoPi (u2f 4294967295) = 0x3E1921FB545D4F13 := by decide +kernel
/-- Example E1, `w` = 0.1 and 1 - 2^-53. -/
theorem test_fsub_rounds : fsub 0 onePointZero 0x3FB999999999999A = 0x3FECCCCCCCCCCCCD := by decide +kernel
theorem test_fsub_cancels : fsub 0 onePointZero 0x3FEFFFFFFFFFFFFF = 0x3CA0000000000000 := by decide +kernel
/-- V-SC-11: 2^53 + 1 rounds to even. -/
theorem test_fadd_tie_even : fadd 0 0x4340000000000000 0x3FF0000000000000 = 0x4340000000000000 := by
  decide +kernel
/-- V-MIX-3 and V-MIX-1: -0.5 and -1.5 truncate toward zero. -/
theorem test_f2i_truncates : f2i 7 0xBFE0000000000000 = 0 ∧ f2i 7 0xBFF8000000000000 = BitVec.ofInt 32 (-1) := by
  decide +kernel
/-- V-OOC-7 and V-OOC-8: the two bounds themselves are out of range. -/
theorem test_f2i_bounds_draw :
    f2i 7 0x41E0000000000000 = 7 ∧ f2i 7 (fneg 0x41E0000000200000) = 7 := by decide +kernel
/-- V-BYP-3 and V-BYP-7: -0.0 equals 0.0, a NaN does not. -/
theorem test_feq_zero : feq 0x8000000000000000 zeroPointZero = true ∧
    feq 0x7FF8000000000000 zeroPointZero = false := by decide

/-! ### Instructions -/

/-- A state from the notation of section 0, with nothing presented or returned. -/
def st (phi : Word) (phf : F64) (di : Byte) (df wt wi : F64) (kind : Waveform) : State :=
  ⟨phi, phf, di, df, wt, wi, kind, true, [], [], [], 0⟩

/-- The state an instruction leaves, where it completes. -/
def after (i : Instr) (s : State) : Option State :=
  match exec i s with
  | .next t => some t
  | .fault _ => none
  | .refused _ => none

/-- V-CFGL-4, from kind square: the top byte, the rounded complement, kind forced to SD. -/
theorem test_cfgl : after (.cfgl 0x40000000 0x3FB999999999999A)
      (st 0x12345678 1 0x07 2 0x3FF0000000000000 0 .sq) =
    some (st 0x12345678 1 0x40 2 0x3FB999999999999A 0x3FECCCCCCCCCCCCD .sd) := by decide +kernel
/-- V-CFGL-7: -0.0 is stored bit for bit, the low 24 bits have no effect (V-CFGL-2). -/
theorem test_cfgl_negative_zero : after (.cfgl 0x00FFFFFF 0x8000000000000000) State.reset =
    some { State.reset with wt := 0x8000000000000000 } := by decide +kernel
/-- V-CFG-9: the product does not wrap at 32 bits and the quotient is floored. -/
theorem test_cfgSd_wide_product : (after (.cfgSd 16777217 0x3FE0000000000000 3) State.reset).map State.di =
    some 170 := by decide +kernel
/-- V-CFG-3: a quotient of 256 aliases to 0. -/
theorem test_cfgSd_aliases : (after (.cfgSd 48000 0x3FE0000000000000 48000) State.reset).map State.di =
    some 0 := by decide +kernel
/-- Section 3.4, the last full-state instance: `PHI`, `PHF`, `DF` are kept. -/
theorem test_cfgSq : after (.cfgSq 24000 0x3FD0000000000000 48000)
      (st 0x12345678 0x3FF0000000000000 0x07 0x3FC0C152382D7365 0x3FF0000000000000 0 .sc) =
    some (st 0x12345678 0x3FF0000000000000 0x80 0x3FC0C152382D7365 0x3FD0000000000000 0x3FE8000000000000 .sq) := by
  decide +kernel
/-- V-CFG-12: floor, not nearest. -/
theorem test_cfgSq_floors : (after (.cfgSq 4294967294 0 4294967295) State.reset).map State.di = some 255 := by
  decide +kernel
/-- Section 3.5, the full-state instance: `DI` keeps its 5. -/
theorem test_cfgSc : after (.cfgSc 440 0x3FD0000000000000 44100)
      (st 0x10 0 0x05 0 0x3FF0000000000000 0 .sq) =
    some (st 0x10 0 0x05 0x3FB00C6938F15E29 0x3FD0000000000000 0x3FE8000000000000 .sc) := by decide +kernel
/-- V-CSC-4: the largest delta. -/
theorem test_cfgSc_largest : (after (.cfgSc 4294967295 0 1) State.reset).map State.df =
    some 0x421921FB542B0B1D := by decide +kernel
/-- V-SQ-11: the square's upper half, weights 0.25 and 0.75. -/
theorem test_proc_square : after (.proc (BitVec.ofInt 32 (-1000)))
      (st 0x80000000 0 0xFF 0 0x3FD0000000000000 0x3FE8000000000000 .sq) =
    some { st 0x800000FF 0 0xFF 0 0x3FD0000000000000 0x3FE8000000000000 .sq with
      responses := [BitVec.ofInt 32 (-536871662)] } := by decide +kernel

/-- V-SD-1, for a table whose entry 64 is 127. -/
theorem test_proc_sine_discrete (h : Config.sineTable 0x40 = 127) :
    after (.proc 1000) (st 0x40000000 0 0x10 0 0x3FE0000000000000 0x3FE0000000000000 .sd) =
      some { st 0x40000010 0 0x10 0 0x3FE0000000000000 0x3FE0000000000000 .sd with
        tableReads := [0x40], responses := [1065353716] } := by
  have hs : ∀ e : Byte, e = 127 →
      { st 0x40000010 0 0x10 0 0x3FE0000000000000 0x3FE0000000000000 .sd with
        tableReads := [0x40]
        responses := [(st 0x40000000 0 0x10 0 0x3FE0000000000000 0x3FE0000000000000 .sd).mix
          (scaleAmplitude e) 1000] } =
      { st 0x40000010 0 0x10 0 0x3FE0000000000000 0x3FE0000000000000 .sd with
        tableReads := [0x40], responses := [1065353716] } := by
    rintro _ rfl
    decide +kernel
  rw [← hs _ h]
  unfold after
  rw [exec_proc, State.process_of_not_bypass _ _ (by decide), State.synthesize_sd _ rfl]
  rfl

/-- V-OOC-2 twice: the sum is out of range, and each `PROC` returns a draw of its own (R9, R10). -/
theorem test_run_draws_afresh :
    (observed (execAll [.proc 0, .proc 0] (st 0 0 5 0 0x3FF8000000000000 0xBFE0000000000000 .sq))).map
      Observation.samples = some [Config.drawI32 .sampleOut 1, Config.drawI32 .sampleOut 2] := by
  have hm : ∀ (s : State), s.wt = 0x3FF8000000000000 → s.wi = 0xBFE0000000000000 →
      s.mix int32Max 0 = s.drawI32 .sampleOut := by
    intro s hw hi
    refine f2i_of_not_narrowable _ ?_
    have hx : isFinite (i2f 0) = true ∧ isFinite (i2f int32Max) = true := by decide +kernel
    have hp : isFinite (fmul 0 (i2f 0) 0xBFE0000000000000) = true ∧
        isFinite (fmul 0 (i2f int32Max) 0x3FF8000000000000) = true := by decide +kernel
    rw [State.mixSum, hw, hi, fmul_free hx.1 (by decide) _ 0, fmul_free hx.2 (by decide) _ 0,
      fadd_free hp.1 hp.2 _ 0]
    decide +kernel
  have hs : ∀ s : State, s.bypass = false → s.kind = .sq → s.lowHalf = true → s.wt = 0x3FF8000000000000 →
      s.wi = 0xBFE0000000000000 → execStep (.proc 0) s =
        .next ((s.take s.pending).advancePhi.respond (Config.drawI32 .sampleOut (s.draws + 1))) := by
    intro s hb hk hl hw hi
    have hy : (s.take s.pending).synthSq.1 = int32Max := if_pos hl
    rw [execStep, exec_proc, State.process_of_not_bypass (s.take s.pending) 0 hb,
      State.synthesize_sq (s.take s.pending) hk, hy, hm (s.take s.pending) hw hi]
    rfl
  rw [execAll_cons (hs _ (by decide) rfl (by decide) rfl rfl), execAll_cons (hs _ (by decide) rfl (by decide) rfl rfl)]
  rfl

/-! ### Witnesses: concrete states and operands that meet the hypotheses of the statements together -/

/-- A state in contract that is no bypass: `CFG.SC 1000, 0.25, 48000` from reset. -/
def scState : State := st 0 0 0 0x3FC0C152382D7365 0x3FD0000000000000 0x3FE8000000000000 .sc

/-- The first state of program P2: square, `DI` = 5, full weight. -/
def sqState : State := st 0 0 5 0 0x3FF0000000000000 0 .sq

/-- A weight and its complement, for the weights the witnesses use. -/
theorem weightsAgree_of {s : State} (hf : isFinite s.wt = true)
    (h : s.wi = fsub 0 onePointZero s.wt) : WeightsAgree s :=
  ⟨fun hn => absurd hn (by rw [not_isNaN_of_isFinite hf]; decide),
    fun _ free => h.trans (fsub_free (by decide) hf 0 free)⟩

theorem witness_roundTrip : (Instr.cfgSd 1000 0x3FE0000000000000 48000).wellFormed = true := rfl
theorem witness_decodes : ∃ i, decode 0x03FFFFFFFFDEADBEEF7FF8000000000001 = .ok i := ⟨_, test_dec_2_proc_ignores⟩
theorem witness_row_selected : ∃ r ∈ opcodeTable, r.selects 0x03FFFFFFFFDEADBEEF7FF8000000000001 = true :=
  ⟨_, .head _, by decide⟩

/-- `HeaderByteMap`: the first and last header byte of every range. -/
theorem witness_headers :
    (headerByte (word 0x00 1 0 0)).toNat ≤ 0x03 ∧ (headerByte (word 0x03 1 2 3)).toNat = 0x03 ∧
    headerByte (word 0x04 1 0 0) = 0x04 ∧ headerByte (word 0x07 1 2 3) = 0x07 ∧
    headerByte (word 0x08 1 2 3) = 0x08 ∧ headerByte (word 0x09 1 2 3) = 0x09 ∧
    headerByte (word 0x0A 1 2 3) = 0x0A ∧ headerByte (word 0x0B 1 2 3) = 0x0B ∧
    headerByte (word 0x0C 0 0 0) = 0x0C ∧ headerByte (word 0x0F 0 0 0) = 0x0F ∧
    headerByte (word 0x10 0 0 0) = 0x10 ∧ headerByte (word 0xFF 0 0 0) = 0xFF := by decide

/-- `StepRunsDecodedInstruction`: P2's first command presented after reset. -/
theorem witness_step :
    (State.reset.withFetchWord 136 0x0A000003E80000BB803FF0000000000000).wasReset = true ∧
    (State.reset.withFetchWord 136 0x0A000003E80000BB803FF0000000000000).pending =
      ⟨false, some 0x0A000003E80000BB803FF0000000000000⟩ :: [] ∧
    decode 0x0A000003E80000BB803FF0000000000000 = .ok (.cfgSq 1000 0x3FF0000000000000 48000) :=
  ⟨rfl, by decide, by decide⟩

/-- `ResetTakesPrecedence` (V-RST-1 with a command beside it) and `IdleHoldsRegisters`. -/
theorem witness_reset_and_idle :
    (sqState.present ⟨true, some 0x0A000003E80000BB803FF0000000000000⟩).pending =
      ⟨true, some 0x0A000003E80000BB803FF0000000000000⟩ :: [] ∧
    sqState.pending = [] ∧ (sqState.present ⟨false, none⟩).pending = ⟨false, none⟩ :: [] := ⟨rfl, rfl, rfl⟩

/-- `RunsAreStepsOfTheMachine`: a block that has been reset. -/
theorem witness_run : sqState.wasReset = true := rfl

/-- `InvalidWordRefused` and `CommandBeforeResetRefused`. -/
theorem witness_refusals :
    (sqState.presentCommand 0x0B000003E80000BB803FF0000000000000).wasReset = true ∧
    decode 0x0B000003E80000BB803FF0000000000000 = .error .reservedWaveform ∧
    ({ sqState with wasReset := false }.present ⟨false, some 0⟩).wasReset = false ∧
    ({ sqState with wasReset := false }.present ⟨false, some 0⟩).pending = ⟨false, some 0⟩ :: [] :=
  ⟨rfl, by decide, rfl, rfl⟩

/-- The statements about rates above 0, and the bound 2^24 of `IntegerDeltaFloorsAndAliases`. -/
theorem witness_rate : (1 : Word) ≠ 0 ∧ (4294967295 : Word) ≠ 0 ∧ (16777215 : Word).toNat < 2 ^ 24 := by decide

/-- `RoundingIsNearestTiesToEven`. -/
theorem witness_rounding : 0 < 2 ^ 53 + 1 ∧ 0 < 1 := by decide

/-- The cases of the floating operations: NaN, infinities of each sign, zeros of each sign, finite data with a
zero and a non-zero sum. -/
theorem witness_data :
    isNaN 0x7FF8000000000000 = true ∧ isNaN 0xFFF0000000000001 = true ∧
    (isInf 0x7FF0000000000000 = true ∧ signBit 0x7FF0000000000000 = false) ∧
    (isInf 0xFFF0000000000000 = true ∧ signBit 0xFFF0000000000000 = true) ∧
    (isZero 0x0000000000000000 = true ∧ isZero 0x8000000000000000 = true) ∧
    (isFinite 0x0000000000000001 = true ∧ isZero 0x0000000000000001 = false) ∧
    (isFinite 0x7FEFFFFFFFFFFFFF = true ∧ isZero 0x7FEFFFFFFFFFFFFF = false ∧ isNaN 0x7FEFFFFFFFFFFFFF = false) := by
  decide

theorem witness_sums :
    value 0x3FF0000000000000 + value 0x0000000000000001 ≠ 0 ∧
    value 0x3FF0000000000000 + value 0xBFF0000000000000 = 0 ∧
    value 0x8000000000000000 + value 0x8000000000000000 = 0 := by decide +kernel

/-- `SubtractionMeetsItsRule`: the ends of [0.5, 2.0]. -/
theorem witness_sterbenz :
    isFinite 0x3FE0000000000000 = true ∧ 1 / 2 ≤ value 0x3FE0000000000000 ∧ value 0x3FE0000000000000 ≤ 2 ∧
    isFinite 0x4000000000000000 = true ∧ 1 / 2 ≤ value 0x4000000000000000 ∧ value 0x4000000000000000 ≤ 2 := by
  decide +kernel

/-- `NarrowingMeetsItsRule`: just inside and at each bound. -/
theorem witness_narrowing :
    (isFinite 0x41DFFFFFFFFFFFFF = true ∧ -2147483649 < value 0x41DFFFFFFFFFFFFF ∧
      value 0x41DFFFFFFFFFFFFF < 2147483648) ∧
    (isFinite 0xC1E00000001FFFFF = true ∧ -2147483649 < value 0xC1E00000001FFFFF ∧
      value 0xC1E00000001FFFFF < 2147483648) ∧
    2147483648 ≤ value 0x41E0000000000000 ∧ value 0xC1E0000000200000 ≤ -2147483649 ∧
    isFinite 0x7FF0000000000000 = false := by decide +kernel

/-- `WeightSumIsOne`, `InstrInContract`: the ends of [0, 1] and a weight between. -/
theorem witness_unitWeights :
    UnitWeight 0x0000000000000000 ∧ UnitWeight 0x3FB999999999999A ∧ UnitWeight 0x3FF0000000000000 := by
  unfold UnitWeight
  decide +kernel

/-- `EveryStepKeepsWeightsAgree`, `InContractMixIsSpecified`: agreeing weights, no bypass. -/
theorem witness_weights : UnitWeight scState.wt ∧ WeightsAgree scState ∧ scState.bypass = false :=
  ⟨by unfold UnitWeight; decide +kernel, weightsAgree_of (by decide) (by decide +kernel), by decide⟩

/-- `EveryStepKeepsWeightsAgree` beside a step that answers a next state. -/
theorem witness_weights_step : ∃ t, WeightsAgree scState ∧ step scState = .next t :=
  ⟨_, witness_weights.2.1, rfl⟩

/-- `BypassReturnsInput` (V-BYP-2, V-BYP-3). -/
theorem witness_bypass :
    (st 0xDEADBEEF 0x400921FB54442D18 0 0 0x3FE0000000000000 0x3FE0000000000000 .sq).bypass = true ∧
    (st 0 0 0 0x8000000000000000 0x3FF0000000000000 0 .sc).bypass = true := by decide

/-- The three sample statements: `DI` not zero, or `DF` no zero (V-BYP-5). -/
theorem witness_samples :
    (st 0 0 1 0 0 0 .sd).kind = .sd ∧ (st 0 0 1 0 0 0 .sd).di ≠ 0 ∧
    scState.kind = .sc ∧ scState.df ≠ 0x0000000000000000 ∧ scState.df ≠ 0x8000000000000000 ∧
    sqState.kind = .sq ∧ sqState.di ≠ 0 := by decide

/-- `ContinuousToneInRange`. -/
theorem witness_finite_phase : isFinite 0x400921FB54442D18 = true := by decide

/-- `StaleDeltaIsNoBypass`: V-BYP-5 (program P4), V-BYP-6, V-BYP-7. -/
theorem witness_stale :
    ((st 0 0 0 0x3FC0C152382D7365 0 0 .sd).kind ≠ .sc ∧ (st 0 0 0 0x3FC0C152382D7365 0 0 .sd).di = 0 ∧
      (0x3FC0C152382D7365 : F64) ≠ 0 ∧ (0x3FC0C152382D7365 : F64) ≠ 0x8000000000000000) ∧
    ((st 0 0x400921FB54442D18 5 0 0 0 .sc).kind = .sc ∧ (st 0 0x400921FB54442D18 5 0 0 0 .sc).di ≠ 0 ∧
      isNaN 0x400921FB54442D18 = false ∧ (0x400921FB54442D18 : F64) ≠ 0x8000000000000000) ∧
    ((st 0 0 0 0x7FF8000000000000 0 0 .sq).di = 0 ∧ isNaN 0x7FF8000000000000 = true) := by decide

/-- `ExactEndsOfWeightRange`: both ends, neither a bypass. -/
theorem witness_ends :
    (sqState.bypass = false ∧ sqState.wt = 0x3FF0000000000000 ∧ sqState.wi = 0x0000000000000000) ∧
    ((st 0x80000000 0 1 0 0 0x3FF0000000000000 .sq).bypass = false ∧
      (st 0x80000000 0 1 0 0 0x3FF0000000000000 .sq).wt = 0x0000000000000000 ∧
      (st 0x80000000 0 1 0 0 0x3FF0000000000000 .sq).wi = 0x3FF0000000000000) := by decide

/-- `IntegerPhasePeriod`, `SquareWaveDuty`: P2's state. -/
theorem witness_square : sqState.kind ≠ .sc ∧ sqState.di ≠ 0 ∧ sqState.kind = .sq ∧ sqState.phi = 0 ∧
    ([] : List Word).length ≤ lowHalfSteps sqState.di := by decide

/-- `SquareWaveDuty`: E3's instances, d = 128 and d = 5, and d = 3 of C8 for the period. -/
theorem witness_square_lengths : lowHalfSteps 128 = 16777216 ∧ lowHalfSteps 5 = 429496730 ∧
    phasePeriod 64 = 67108864 ∧ phasePeriod 3 = 2 ^ 32 := by decide +kernel

/-- `SquareWaveDuty`: full weight, and a list as long as the lower half lasts, where its last clause begins. -/
theorem witness_square_full : sqState.wt = 0x3FF0000000000000 ∧ sqState.wi = 0x0000000000000000 ∧
    ∃ xs : List Word, xs.length = lowHalfSteps sqState.di :=
  ⟨rfl, rfl, List.replicate _ 0, List.length_replicate⟩

/-- `TableReadOnlyBySineDiscrete`: a step that reads the table, at the top byte of `PHI`. -/
theorem witness_table_read :
    ∃ t, step ((st 0x40000000 0 1 0 0 0 .sd).withFetchWord 136 5) = .next t ∧ t.tableReads = [0x40] :=
  ⟨_, rfl, by decide +kernel⟩

/-- `ContractRunsAreSpecified`: P2's configure and a reset, both in contract. -/
theorem witness_contract_run :
    ∀ tr ∈ [⟨false, some 0x0A000003E80000BB803FF0000000000000⟩, (⟨true, none⟩ : Transaction)],
      TransactionInContract tr := by
  intro tr h
  simp only [List.mem_cons, List.not_mem_nil, or_false] at h
  rcases h with rfl | rfl
  · exact .inr (.inr ⟨_, .cfgSq 1000 0x3FF0000000000000 48000, rfl, by decide, by decide, witness_unitWeights.2.2⟩)
  · exact .inl rfl

/-- `ContinuousPhaseStops`: V-SC-12. -/
theorem witness_stop : isFinite 0x4330000000000000 = true ∧ isFinite 0x3FC0C152382D7365 = true ∧
    1 ≤ expField 0x4330000000000000 ∧ signBit 0x4330000000000000 = signBit 0x3FC0C152382D7365 ∧
    |value 0x3FC0C152382D7365| < 2 ^ ((expField 0x4330000000000000 : Int) - 1076) := by decide +kernel

/-- `OnlyProcAndResetMovePhases`: a step that moves `PHI`. -/
theorem witness_phase_moves :
    ∃ t, step (sqState.withFetchWord 136 5) = .next t ∧ t.phi ≠ (sqState.withFetchWord 136 5).phi :=
  ⟨_, rfl, by decide +kernel⟩

/-- `ConfigureReadsNoRegister`: two states with the same number of draws. -/
theorem witness_configure : (∀ x, (Instr.cfgl 0 0) ≠ .proc x) ∧ scState.draws = sqState.draws :=
  ⟨nofun, rfl⟩

/-- `ContractKeptAndNoDrawShows`: a state in contract with a command in contract presented. -/
theorem witness_contract :
    (scState.withFetchWord 136 0x0A000003E80000BB803FF0000000000000).wasReset = true ∧
    StateInContract (scState.withFetchWord 136 0x0A000003E80000BB803FF0000000000000) ∧
    TransactionInContract ⟨false, some 0x0A000003E80000BB803FF0000000000000⟩ := by
  refine ⟨rfl, ⟨?_, ?_, ?_, ?_⟩, .inr (.inr ⟨_, .cfgSq 1000 0x3FF0000000000000 48000, rfl, by decide, ?_⟩)⟩
  · exact witness_weights.1
  · exact witness_weights.2.1
  · decide +kernel
  · decide +kernel
  · exact ⟨by decide, witness_unitWeights.2.2⟩

/-- R74, R75 and example P1: the text of a command. -/
theorem test_asm_cfgl : readLine "CFGL 0x40000000, 0.5     ; P1".toList =
    some (.command (.cfgl 0x40000000 0x3FE0000000000000)) := by decide +kernel
theorem test_asm_pseudo : readLine "CFG 1000, 0.1, SC, 48000".toList =
    some (.command (.cfgSc 1000 0x3FB999999999999A 48000)) := by decide +kernel
theorem test_asm_proc_min : readLine "PROC -2147483648".toList = some (.command (.proc 0x80000000)) := by
  decide +kernel
theorem test_asm_range_refused : readLine "PROC 2147483648".toList = none := by decide +kernel

/-- Log entry 17, the model's choices where R74 is open: no plus sign, and -0.0 is the pattern of -0.0. -/
theorem test_asm_signs : readI32 "+5".toList = none ∧ readF64 "-0.0".toList = some 0x8000000000000000 := by
  decide +kernel

/-- Log entry 17, the model's choices where R74 and R75 are open: lines without a command, the `n` of `.rep`. -/
theorem test_asm_empty_and_rep :
    readLine [] = none ∧ readLine "; P1".toList = none ∧ readLine ".rep 0x10".toList = none ∧
    readLine ".rep 0".toList = some (.rep 0) := by decide +kernel

end Sys2Proof.Tests
end

section
/-! PROOFS. A program's run is the machine's own steps (spec 00_scope.md R10, 20_memory.md R51,
70_reset_and_hazards.md R210). -/

namespace Sys2Proof.Machine

/-! ### The decoder on an encoded command (R62, R68) -/

/-- The decoder reads back the fields that the encoder wrote; `op` and `wf` select the branch. -/
@[simp] theorem decode_encode (i : Instr) : decode (encode i) = .ok i := by
  cases i <;> simp [encode, decode, Waveform.code]

/-! ### One presented command, one reset -/

/-- Where a command of a program is presented to a block that has been reset, the step is its execution (R51). -/
theorem step_commandTransaction {s : State} {i : Instr} {rest : List Transaction} (hw : s.wasReset = true)
    (hp : s.pending = commandTransaction i :: rest) : step s = exec i (s.take rest) := by
  simp [step, hp, commandTransaction, serve, runCommand, hw]

/-- The step agrees with the step of a run, whatever the run's state says is still to be presented (R10). -/
theorem step_of_execStep {s t : State} {i : Instr} (rest : List Transaction) (hw : s.wasReset = true)
    (h : execStep i s = .next t) :
    step { s with pending := commandTransaction i :: rest } = .next { t with pending := rest } :=
  (step_commandTransaction (s := { s with pending := commandTransaction i :: rest }) hw rfl).trans
    (exec_pending rest h)

/-- A reset presented leaves the reset registers and keeps what the ports have shown so far (R34, R210). -/
theorem step_reset {s : State} {cmd : Option Command} {rest : List Transaction}
    (hp : s.pending = ⟨true, cmd⟩ :: rest) : step s = .next (s.take rest).applyReset := by
  simp [step, hp, serve]

/-! ### A whole program -/

/-- A program presented to a block that has been reset runs as `execAll` executes it, and what stands behind it
in the queue is still there (R10, R51). -/
theorem core_run_program (program : List Instr) {rest : List Transaction} {s : State} (hw : s.wasReset = true)
    (hp : s.pending = rest) :
    Host.Core.run core program.length { s with pending := program.map commandTransaction ++ rest } =
      execAll program s := by
  induction program generalizing s with
  | nil => subst hp; rfl
  | cons i program ih =>
    obtain ⟨t, ht, -, htp, htw⟩ := execStep_next i s
    have hstep := step_of_execStep (program.map commandTransaction ++ rest) hw ht
    have hrun := ih (htw.trans hw) (htp.trans hp)
    exact ((core_run_of_step hstep _).trans hrun).trans (execAll_cons ht program).symm

/-- Settles O60: a program's run by induction on its commands, and the reset before it by one more step. -/
theorem runsAreStepsOfTheMachine : Obligations.RunsAreStepsOfTheMachine := by
  refine ⟨fun program rest s hw => core_run_program program (s := { s with pending := rest }) hw rfl,
    fun program s => ?_⟩
  rw [core_run_of_step (step_reset rfl)]
  have hrun := core_run_program program (rest := []) (s := { State.reset with
    responses := s.responses, tableReads := s.tableReads, draws := s.draws + 1 }) rfl rfl
  rwa [List.append_nil] at hrun

end Sys2Proof.Machine
end

section
/-! PROOFS. The registers (spec 10_state.md): what moves a phase, what the weights of a reachable state are, the
reset values, and where those of `WT`, `WI` and `KIND` do not show. -/

namespace Sys2Proof.Machine

/-! ### Which registers an instruction writes (R37, R94, R95) -/

/-- A sample writes no control register (R37). -/
theorem State.process_keeps (s : State) (x : Word) :
    (s.process x).di = s.di ∧ (s.process x).df = s.df ∧ (s.process x).wt = s.wt ∧
    (s.process x).wi = s.wi ∧ (s.process x).kind = s.kind := by
  cases hb : s.bypass
  · obtain ⟨hdi, hdf, hwt, hwi, hkind, -⟩ := s.synthesize_keeps
    simp [s.process_of_not_bypass x hb, hdi, hdf, hwt, hwi, hkind]
  · simp [s.process_of_bypass x hb]

/-- Any instruction either keeps both weights or writes the second as the complement of the first (R94). -/
theorem exec_weights {i : Instr} {s t : State} (h : exec i s = .next t) :
    (t.wt = s.wt ∧ t.wi = s.wi) ∨ ∃ free, t.wi = fsub free onePointZero t.wt := by
  cases i with
  | proc x =>
    obtain ⟨-, -, hwt, hwi, -⟩ := s.process_keeps x
    cases h
    exact .inl ⟨hwt, hwi⟩
  | _ => cases h; exact .inr ⟨_, rfl⟩

/-- Any instruction but `PROC` keeps both phases (R95). -/
theorem exec_phases {i : Instr} {s t : State} (h : exec i s = .next t) :
    (∃ x, i = .proc x) ∨ (t.phi = s.phi ∧ t.phf = s.phf) := by
  cases i with
  | proc x => exact .inl ⟨x, rfl⟩
  | _ => cases h; exact .inr ⟨rfl, rfl⟩

/-! ### The complement of a weight (R94, R148, R151) -/

/-- Full exponent and a fraction that is not 0 make a NaN (R146). -/
theorem isNaN_of_fields {x : F64} (he : expField x = 2047) (hf : fracField x ≠ 0) : isNaN x = true := by
  simp [isNaN, he, hf]

/-- Whatever the free bits, the pattern made of them is a NaN's (R148). -/
@[simp] theorem isNaN_nanOf (free : F64) : isNaN (nanOf free) = true := by
  unfold nanOf
  split
  · assumption
  · apply isNaN_of_fields
    · have hones : BitVec.extractLsb' 52 11 (0x7FF8000000000000 : F64) = BitVec.allOnes 11 := by decide
      rw [expField, BitVec.extractLsb'_or, hones, BitVec.or_allOnes]
      rfl
    · have htop : BitVec.extractLsb' 0 52 (0x7FF8000000000000 : F64) ≠ 0#52 := by decide
      rw [fracField, BitVec.extractLsb'_or]
      exact fun h => htop (BitVec.or_eq_zero_iff.mp (BitVec.eq_of_toNat_eq h)).2

/-- The sign flip keeps the exponent and the fraction (R151). -/
theorem fields_fneg (x : F64) : expField (fneg x) = expField x ∧ fracField (fneg x) = fracField x := by
  have he : BitVec.extractLsb' 52 11 (0x8000000000000000 : F64) = 0#11 := by decide
  have hf : BitVec.extractLsb' 0 52 (0x8000000000000000 : F64) = 0#52 := by decide
  unfold expField fracField fneg
  rw [BitVec.extractLsb'_xor, BitVec.extractLsb'_xor, he, hf, BitVec.xor_zero, BitVec.xor_zero]
  exact ⟨rfl, rfl⟩

@[simp] theorem isNaN_fneg (x : F64) : isNaN (fneg x) = isNaN x := by
  obtain ⟨he, hf⟩ := fields_fneg x
  rw [isNaN, he, hf, isNaN]

/-- The complement of a NaN is a NaN (R94, R148). -/
theorem isNaN_fsub_right (free x : F64) {w : F64} (h : isNaN w = true) : isNaN (fsub free x w) = true := by
  simp [fsub, fadd, h]

/-- `1.0 - w` draws nothing where `w` is no NaN: one infinity alone makes no NaN (R148, R150). -/
theorem fsub_one_free {w : F64} (h : isNaN w = false) (free free' : F64) :
    fsub free onePointZero w = fsub free' onePointZero w := by
  have hnan : isNaN onePointZero = false := by decide
  have hinf : isInf onePointZero = false := by decide
  simp [fsub, fadd, h, hnan, hinf]

/-! ### The weights agree (R27, R29, R94) -/

/-- The agreement speaks of the two weights alone. -/
theorem WeightsAgree.of_same {s t : State} (h : WeightsAgree s) (hwt : t.wt = s.wt) (hwi : t.wi = s.wi) :
    WeightsAgree t := by
  unfold WeightsAgree
  rw [hwt, hwi]
  exact h

/-- A complement with any free bits agrees. -/
theorem weightsAgree_of_fsub {s : State} {free : F64} (h : s.wi = fsub free onePointZero s.wt) :
    WeightsAgree s :=
  ⟨fun hn => h ▸ isNaN_fsub_right free onePointZero hn, fun hn free' => h.trans (fsub_one_free hn free free')⟩

theorem weightsAgree_exec {i : Instr} {s t : State} (hs : WeightsAgree s) (h : exec i s = .next t) :
    WeightsAgree t := by
  rcases exec_weights h with ⟨hwt, hwi⟩ | ⟨free, hwi⟩
  · exact hs.of_same hwt hwi
  · exact weightsAgree_of_fsub hwi

/-- Settles O41: 1.0 is the complement of +0.0. -/
theorem resetWeightsAgree : Obligations.ResetWeightsAgree :=
  weightsAgree_of_fsub (free := 0) (by decide +kernel)

/-- Settles O40: a step keeps both weights, writes them with a configure, or resets them. -/
theorem everyStepKeepsWeightsAgree : Obligations.EveryStepKeepsWeightsAgree := by
  intro s t hs h
  rcases step_cases s h with ⟨-, rfl⟩ | ⟨_, rest, -, -, rfl⟩ | ⟨rest, -, rfl⟩ | ⟨_, rest, i, -, -, -, he⟩
  · exact hs
  · exact resetWeightsAgree.of_same rfl rfl
  · exact hs.of_same rfl rfl
  · have htaken : WeightsAgree (s.take rest) := hs.of_same rfl rfl
    exact weightsAgree_exec htaken he

/-! ### The reset state (R34, R215) -/

/-- Settles O12: the reset event writes State.reset's registers, whose values are R34's. -/
theorem resetValues : Obligations.ResetValues :=
  ⟨fun _ => ⟨rfl, rfl, rfl, rfl, rfl, rfl, rfl⟩, rfl, rfl, rfl, rfl, rfl, rfl, rfl⟩

theorem value_zero : value 0x0000000000000000 = 0 := by
  have hq : quanta 0x0000000000000000 = 0 := by decide
  rw [value_eq_quanta, hq, Int.cast_zero, zero_div]

theorem unitWeight_zero : UnitWeight 0x0000000000000000 :=
  ⟨by decide, value_zero.ge, value_zero.trans_le zero_le_one⟩

/-- The interval of the deltas holds 0 (R92). -/
theorem value_largestDelta_nonneg : 0 ≤ value largestDelta := by decide +kernel

/-- Settles O57: the floating registers but `WI` are +0.0, and the weights agree. -/
theorem resetInContract : Obligations.ResetInContract := by
  have hfin : isFinite 0x0000000000000000 = true := by decide
  refine ⟨unitWeight_zero, resetWeightsAgree, ⟨hfin, ?_, ?_⟩, hfin, ?_, ?_⟩
  · exact value_zero.ge
  · exact value_zero.trans_le value_largestDelta_nonneg
  · exact value_zero.ge
  · exact value_zero.trans_le (by positivity)

/-! ### What moves a phase (R20, R36) -/

/-- Settles O54: of what a step can do, only a reset and a `PROC` write a phase. -/
theorem onlyProcAndResetMovePhases : Obligations.OnlyProcAndResetMovePhases := by
  intro s t h hmoved
  rcases step_cases s h with ⟨-, rfl⟩ | ⟨tr, rest, hp, hrst, -⟩ | ⟨rest, -, rfl⟩ | ⟨c, rest, i, hp, -, hd, he⟩
  · simp at hmoved
  · exact ⟨tr, rest, hp, .inl hrst⟩
  · simp at hmoved
  · refine ⟨_, rest, hp, .inr ?_⟩
    rcases exec_phases he with ⟨x, rfl⟩ | ⟨hphi, hphf⟩
    · exact ⟨c, x, rfl, hd⟩
    · simp [hphi, hphf] at hmoved

/-! ### The period of the integer phase (R21, R140) -/

/-- A nonzero `DI` alone rules the bypass out (R111). -/
theorem State.bypass_of_di_ne_zero {s : State} (h : s.di ≠ 0) : s.bypass = false := by
  unfold State.bypass
  rw [beq_false_of_ne h, Bool.false_and]

/-- A sample of a waveform that runs on `PHI` advances `PHI` by `DI` (R113, R115). -/
theorem State.process_phi {s : State} (x : Word) (hb : s.bypass = false) (hk : s.kind ≠ .sc) :
    (s.process x).phi = phaseAdd s.phi s.di := by
  rw [s.process_of_not_bypass x hb]
  rcases s.synthesize_state with ⟨-, h⟩ | ⟨hsc, -⟩ | ⟨-, h⟩
  · simp [h]
  · exact absurd hsc hk
  · simp [h]

/-- One advance more is one multiple of `DI` more, modulo 2^32 (R140). -/
theorem phaseAdd_add_mul (phase : Word) (d : Byte) (n : Nat) :
    phaseAdd phase d + BitVec.ofNat 32 (n * d.toNat) = phase + BitVec.ofNat 32 ((n + 1) * d.toNat) := by
  rw [phaseAdd, ← BitVec.ofNat_toNat, Nat.succ_mul, Nat.add_comm (n * d.toNat), BitVec.ofNat_add, BitVec.add_assoc]

/-- `n` samples of a waveform that runs on `PHI` move it by `n · DI` (R21). -/
theorem execAll_procs_phi (xs : List Word) {s : State} (hk : s.kind ≠ .sc) (hd : s.di ≠ 0) :
    ∃ t, execAll (xs.map .proc) s = .next t ∧ t.phi = s.phi + BitVec.ofNat 32 (xs.length * s.di.toNat) := by
  induction xs generalizing s with
  | nil => exact ⟨s, rfl, by simp⟩
  | cons x xs ih =>
    obtain ⟨hdi, -, -, -, hkind⟩ := (s.take s.pending).process_keeps x
    have hphi := State.process_phi (s := s.take s.pending) x (State.bypass_of_di_ne_zero hd) hk
    obtain ⟨t, ht, htphi⟩ := ih (hkind ▸ hk) (hdi ▸ hd)
    refine ⟨t, (execAll_cons rfl _).trans ht, ?_⟩
    rw [htphi, hphi, hdi]
    exact phaseAdd_add_mul s.phi s.di xs.length

/-- The multiples of a delta that are 0 modulo 2^32 are those of its period (R122). -/
theorem phasePeriod_dvd (d : Byte) (n : Nat) : phasePeriod d ∣ n ↔ 2 ^ 32 ∣ n * d.toNat := by
  have hpos : 0 < Nat.gcd d.toNat (2 ^ 32) := Nat.gcd_pos_of_pos_right _ (by decide)
  rw [phasePeriod, Nat.div_dvd_iff_dvd_mul (Nat.gcd_dvd_right _ _) hpos, Nat.gcd_comm,
    Nat.dvd_gcd_mul_iff_dvd_mul, Nat.mul_comm]

/-- A phase is back where it was exactly when it has moved by a multiple of 2^32 (R140). -/
theorem phase_add_eq_self (phase : Word) (k : Nat) : phase + BitVec.ofNat 32 k = phase ↔ 2 ^ 32 ∣ k := by
  rw [add_eq_left, ← BitVec.toNat_inj, BitVec.toNat_ofNat, Nat.dvd_iff_mod_eq_zero]
  rfl

/-- Settles O51: the displacement by induction on the samples, the period by divisibility. -/
theorem integerPhasePeriod : Obligations.IntegerPhasePeriod := by
  intro s xs hk hd
  obtain ⟨t, ht, hphi⟩ := execAll_procs_phi xs hk hd
  refine ⟨t, ht, hphi, ?_⟩
  rw [hphi, phase_add_eq_self, phasePeriod_dvd]

/-! ### The reset values of `WT`, `WI` and `KIND` show nowhere (10_state.md section 5)

Until the first configure a run from reset is in bypass, which reads none of the three; a configure writes all
three. -/

/-- The state with other values of the registers that every configure writes (R94). -/
def State.withMix (s : State) (wt wi : F64) (kind : Waveform) : State :=
  { s with wt := wt, wi := wi, kind := kind }

section Mix
variable {s : State} (wt wi : F64) (kind : Waveform)

/-- A configure writes all three registers and reads none of them (R94). -/
theorem execStep_withMix {i : Instr} (hi : ∀ x, i ≠ .proc x) :
    execStep i (s.withMix wt wi kind) = execStep i s := by
  cases i with
  | proc x => exact absurd rfl (hi x)
  | _ => rfl

/-- A bypass returns its input and is a bypass whatever the three registers hold (R111). -/
theorem execStep_proc_withMix (x : Word) (hb : s.bypass = true) :
    execStep (.proc x) (s.withMix wt wi kind) =
      .next (((s.take s.pending).respond x).withMix wt wi kind) := by
  have htaken : ((s.withMix wt wi kind).take (s.withMix wt wi kind).pending).bypass = true := hb
  rw [execStep, exec_proc, State.process_of_bypass _ x htaken]
  rfl

/-- From a bypass the words returned do not depend on the three registers. -/
theorem samples_execAll_withMix (program : List Instr) (hb : s.bypass = true) :
    (observed (execAll program (s.withMix wt wi kind))).map Observation.samples =
      (observed (execAll program s)).map Observation.samples := by
  induction program generalizing s with
  | nil => rfl
  | cons i program ih =>
    cases i with
    | proc x =>
      have hs : execStep (.proc x) s = .next ((s.take s.pending).respond x) :=
        execStep_proc_withMix s.wt s.wi s.kind x hb
      rw [execAll_cons (execStep_proc_withMix wt wi kind x hb), execAll_cons hs]
      exact ih hb
    | _ => rfl

end Mix

/-- Settles O59: the reset state is a bypass. -/
theorem resetWeightsUnobservable : Obligations.ResetWeightsUnobservable := by
  intro program wt wi kind
  obtain ⟨t, ht, -⟩ := execAll_next program State.reset
  refine ⟨samples_execAll_withMix wt wi kind program (by decide), ?_⟩
  rw [runFromReset, ht]
  rfl

end Sys2Proof.Machine
end

section
/-! PROOFS. The memory (spec 20_memory.md): the command port is where the next instruction comes from, and what
reads the table. -/

namespace Sys2Proof.Machine

/-! ### The instruction that a step runs (R51, R60, R68) -/

/-- Settles O10: with no reset beside it, a command presented after a reset is decoded and executed. -/
theorem stepRunsDecodedInstruction : Obligations.StepRunsDecodedInstruction := by
  intro s c rest i hw hp hd
  have hserve : step s = runCommand c (s.take rest) := by simp [step, hp, serve]
  have hrun : runCommand c (s.take rest) = exec i (s.take rest) := by simp [runCommand, hw, hd]
  exact hserve.trans hrun

/-! ### What reads the table (R44, R56, R113) -/

/-- A sample presents no index, or the top byte of `PHI` where it synthesizes the discrete sine (R111, R113). -/
theorem State.process_tableReads (s : State) (x : Word) :
    (s.process x).tableReads = s.tableReads ∨
    ((s.process x).tableReads = s.tableReads ++ [topByte s.phi] ∧ s.kind = .sd ∧ s.bypass = false) := by
  cases hb : s.bypass
  · rw [s.process_of_not_bypass x hb]
    rcases s.synthesize_state with ⟨hk, h⟩ | ⟨-, h⟩ | ⟨-, h⟩
    · exact .inr ⟨by simp [h], hk, rfl⟩
    · exact .inl (by simp [h])
    · exact .inl (by simp [h])
  · exact .inl (by simp [s.process_of_bypass x hb])

/-- Of the instructions only `PROC` can present an index (R44). -/
theorem exec_tableReads {i : Instr} {s t : State} (h : exec i s = .next t) :
    t.tableReads = s.tableReads ∨
    (t.tableReads = s.tableReads ++ [topByte s.phi] ∧ s.kind = .sd ∧ s.bypass = false ∧ ∃ x, i = .proc x) := by
  cases i with
  | proc x =>
    cases h
    rcases s.process_tableReads x with hkept | ⟨hread, hk, hb⟩
    · exact .inl hkept
    · exact .inr ⟨hread, hk, hb, x, rfl⟩
  | _ => cases h; exact .inl rfl

/-- Settles O55: of what a step can do, only a `PROC` of the discrete sine presents an index; that the transaction
has left the queue changes neither `PHI` nor `KIND` nor the bypass test. -/
theorem tableReadOnlyBySineDiscrete : Obligations.TableReadOnlyBySineDiscrete := by
  intro s t h
  rcases step_cases s h with ⟨-, rfl⟩ | ⟨_, rest, -, -, rfl⟩ | ⟨rest, -, rfl⟩ | ⟨c, rest, i, hp, -, hd, he⟩
  · exact .inl rfl
  · exact .inl rfl
  · exact .inl rfl
  · rcases exec_tableReads he with hkept | ⟨hread, hk, hb, x, rfl⟩
    · exact .inl hkept
    · exact .inr ⟨hread, hk, hb, c, x, rest, hp, hd⟩

end Sys2Proof.Machine
end

section
/-! PROOFS. The serialised form (spec 30_encoding.md R64): which bits each byte of a command and of a sample holds,
and what the decoder makes of a frame. -/

namespace Sys2Proof

/-! ### Bytes of a number, most significant first -/

theorem bytesOfNat_zero (v : Nat) : bytesOfNat 0 v = [] := rfl

theorem bytesOfNat_succ (n v : Nat) :
    bytesOfNat (n + 1) v = BitVec.ofNat 8 (v / 256 ^ n) :: bytesOfNat n v := rfl

@[simp] theorem length_bytesOfNat (n v : Nat) : (bytesOfNat n v).length = n := by
  induction n with
  | zero => rfl
  | succ n ih => rw [bytesOfNat_succ, List.length_cons, ih]

/-- Byte `k` of `n` is the digit of `256 ^ (n - 1 - k)`. -/
theorem getElem?_bytesOfNat (v : Nat) {n k : Nat} (h : k < n) :
    (bytesOfNat n v)[k]? = some (BitVec.ofNat 8 (v / 256 ^ (n - 1 - k))) := by
  induction n generalizing k with
  | zero => exact absurd h (Nat.not_lt_zero k)
  | succ n ih =>
    cases k with
    | zero => rfl
    | succ k =>
      rw [bytesOfNat_succ, List.getElem?_cons_succ, ih (Nat.lt_of_succ_lt_succ h)]
      congr 4
      omega

/-- Byte `k` of the `n` low bytes of a word is a run of eight of its bits. -/
theorem getElem?_bytesOfNat_toNat {width : Nat} (x : BitVec width) {n k : Nat} (h : k < n) :
    (bytesOfNat n x.toNat)[k]? = some (x.extractLsb' (8 * (n - 1 - k)) 8) := by
  rw [getElem?_bytesOfNat _ h, BitVec.extractLsb', Nat.shiftRight_eq_div_pow, Nat.pow_mul]

/-- Reading bytes goes on from the number already read. -/
theorem foldl_bytesOfNat (n v acc : Nat) :
    (bytesOfNat n v).foldl (fun acc b => acc * 256 + b.toNat) acc = acc * 256 ^ n + v % 256 ^ n := by
  induction n generalizing acc with
  | zero => simp [bytesOfNat_zero, Nat.mod_one]
  | succ n ih =>
    rw [bytesOfNat_succ, List.foldl_cons, ih, BitVec.toNat_ofNat, Nat.mod_pow_succ (b := 256)]
    ring

theorem natOfBytes_bytesOfNat (n v : Nat) : natOfBytes (bytesOfNat n v) = v % 256 ^ n := by
  rw [natOfBytes, foldl_bytesOfNat, Nat.zero_mul, Nat.zero_add]

/-! ### The bytes of a command (R64) -/

theorem length_commandBytes (c : Command) : (commandBytes c).length = 17 := length_bytesOfNat 17 c.toNat

/-- A run of bits of a field is a run of bits of the word. -/
theorem extractLsb'_field {width : Nat} (x : BitVec width) {start len i n : Nat} (h : i + n ≤ len) :
    (x.extractLsb' start len).extractLsb' i n = x.extractLsb' (start + i) n := by
  ext k hk
  simp only [BitVec.getElem_extractLsb', BitVec.getLsbD_extractLsb']
  rw [decide_eq_true (show i + k < len by omega), Bool.true_and, Nat.add_assoc]

/-- A byte of a command that lies `m` bytes above the low end of a field is that byte of the field. -/
theorem commandBytes_field (c : Command) {start len k m : Nat} (hk : k < 17) (hm : 8 * m + 8 ≤ len)
    (hbits : 8 * (16 - k) = start + 8 * m) :
    (commandBytes c)[k]? = some ((c.extractLsb' start len).extractLsb' (8 * m) 8) := by
  rw [extractLsb'_field c hm, ← hbits]
  exact getElem?_bytesOfNat_toNat c hk

/-- The decoder reads a serialised command as the word itself. -/
@[simp] theorem decodeFrame_commandBytes (c : Command) : decodeFrame (commandBytes c) = decode c := by
  have hnum : BitVec.ofNat 136 (natOfBytes (commandBytes c)) = c := by
    have hlt : c.toNat < 256 ^ 17 := c.isLt
    rw [commandBytes, natOfBytes_bytesOfNat, Nat.mod_eq_of_lt hlt, BitVec.ofNat_toNat, BitVec.setWidth_eq]
  rw [decodeFrame, if_pos (length_commandBytes c), hnum]

/-- What the host asks for by a word's number is what the word decodes to (R64, R68). -/
theorem decodeTableWord_toNat (c : Command) : decodeTableWord 136 c.toNat = (decode c).toOption := by
  rw [decodeTableWord, Nat.mod_eq_of_lt c.isLt, BitVec.ofNat_toNat, BitVec.setWidth_eq, decodeFrame_commandBytes]

/-- Settles O7: each field's bytes are the bytes of the word at the field's place. -/
theorem bytesMostSignificantFirst : Obligations.BytesMostSignificantFirst := by
  refine ⟨fun c => ⟨length_commandBytes c, fun k hk => getElem?_bytesOfNat_toNat c hk,
    getElem?_bytesOfNat_toNat c (by decide), fun k hk => ?a, fun k hk => ?b, fun k hk => ?w,
    decodeFrame_commandBytes c⟩,
    fun v => ⟨length_bytesOfNat 4 _, fun k hk => getElem?_bytesOfNat_toNat v hk⟩⟩
  case a | b | w => exact commandBytes_field c (by omega) (by omega) (by omega)

/-- Settles O1: the serialised forms decode as the word does. -/
theorem decodeEncodeRoundTrip : Obligations.DecodeEncodeRoundTrip := by
  intro i _
  refine ⟨Machine.decode_encode i, ?_, ?_⟩
  · rw [decodeFrame_commandBytes, Machine.decode_encode]
  · rw [decodeTableWord_toNat, Machine.decode_encode]
    rfl

/-- The bytes that an instruction encodes to decode to it (R62, R64). -/
theorem decodeFrame_of_commandBytes {bytes : List Byte} {i : Instr} (h : commandBytes (encode i) = bytes) :
    decodeFrame bytes = .ok i := by
  rw [← h, decodeFrame_commandBytes, Machine.decode_encode]

/-- Settles O8: the bytes of the spec's table are those of the encoder. -/
theorem workedEncodingsDecode : Obligations.WorkedEncodingsDecode := by
  refine ⟨?_, ?_, ?_, ?_, ?_, ?_⟩ <;> exact decodeFrame_of_commandBytes (by decide)

end Sys2Proof
end

section
/-! PROOFS. The decoder (spec 30_encoding.md R68 to R72): what it answers for each kind of header, the header byte's
map, and the rows of the opcode table. -/

namespace Sys2Proof

open Sys2Proof.Machine

section Decoder
variable {c : Command}

/-! ### One equation per kind of header (R68) -/

theorem decode_proc (hr : rsvField c = 0) (ho : opField c = 0) : decode c = .ok (.proc (aField c)) := by
  simp [decode, hr, ho]

theorem decode_cfgl (hr : rsvField c = 0) (ho : opField c = 1) :
    decode c = .ok (.cfgl (aField c) (wField c)) := by
  simp [decode, hr, ho]

theorem decode_cfg {kind : Waveform} (hr : rsvField c = 0) (ho : opField c = 2) (hw : wfField c = kind.code) :
    decode c = .ok (pseudoCfg (aField c) (wField c) kind (bField c)) := by
  cases kind <;> simp [decode, hr, ho, hw, Waveform.code, pseudoCfg]

theorem decode_reservedBits (hr : rsvField c ≠ 0) : decode c = .error .reservedBits := by
  rw [decode, if_pos hr]

theorem decode_reservedWaveform (hr : rsvField c = 0) (ho : opField c = 2) (hw : wfField c = 3) :
    decode c = .error .reservedWaveform := by
  simp [decode, hr, ho, hw]

theorem decode_reservedOperation (hr : rsvField c = 0) (ho : opField c = 3) :
    decode c = .error .reservedOperation := by
  simp [decode, hr, ho]

/-- A 2-bit code is 3 or names a waveform kind (R28). -/
theorem waveform_code_or_reserved (wf : BitVec 2) : wf = 3 ∨ ∃ kind : Waveform, wf = kind.code := by
  have hwf : wf = 0 ∨ wf = 1 ∨ wf = 2 ∨ wf = 3 := by revert wf; decide
  rcases hwf with h | h | h | h
  · exact .inr ⟨.sd, h⟩
  · exact .inr ⟨.sc, h⟩
  · exact .inr ⟨.sq, h⟩
  · exact .inl h

/-- A header is one of the three reserved ones (R70) or one of the three operations'. -/
theorem header_cases (c : Command) :
    (rsvField c ≠ 0 ∨ opField c = 3 ∨ (opField c = 2 ∧ wfField c = 3)) ∨
    (rsvField c = 0 ∧ (opField c = 0 ∨ opField c = 1 ∨
      (opField c = 2 ∧ ∃ kind : Waveform, wfField c = kind.code))) := by
  by_cases hr : rsvField c = 0
  · have hop : ∀ op : BitVec 2, op = 0 ∨ op = 1 ∨ op = 2 ∨ op = 3 := by decide
    rcases hop (opField c) with h | h | h | h
    · exact .inr ⟨hr, .inl h⟩
    · exact .inr ⟨hr, .inr (.inl h)⟩
    · rcases waveform_code_or_reserved (wfField c) with hw | hw
      · exact .inl (.inr (.inr ⟨h, hw⟩))
      · exact .inr ⟨hr, .inr (.inr ⟨h, hw⟩)⟩
    · exact .inl (.inr (.inl h))
  · exact .inl (.inl hr)

/-- Every reserved header is rejected (R70). -/
theorem decode_reserved (h : rsvField c ≠ 0 ∨ opField c = 3 ∨ (opField c = 2 ∧ wfField c = 3)) :
    ∃ e, decode c = .error e := by
  by_cases hr : rsvField c = 0
  · rcases h with hr' | ho | ⟨ho, hw⟩
    · exact absurd hr hr'
    · exact ⟨_, decode_reservedOperation hr ho⟩
    · exact ⟨_, decode_reservedWaveform hr ho hw⟩
  · exact ⟨_, decode_reservedBits hr⟩

/-- What a word that decodes holds in its header, and what it decodes to. -/
theorem decode_ok_cases {i : Instr} (h : decode c = .ok i) :
    rsvField c = 0 ∧
    ((opField c = 0 ∧ i = .proc (aField c)) ∨
     (opField c = 1 ∧ i = .cfgl (aField c) (wField c)) ∨
     (opField c = 2 ∧ ∃ kind : Waveform,
       wfField c = kind.code ∧ i = pseudoCfg (aField c) (wField c) kind (bField c))) := by
  rcases header_cases c with hres | ⟨hr, ho | ho | ⟨ho, kind, hw⟩⟩
  · obtain ⟨e, he⟩ := decode_reserved hres
    exact absurd (he.symm.trans h) nofun
  · exact ⟨hr, .inl ⟨ho, Except.ok.inj (h.symm.trans (decode_proc hr ho))⟩⟩
  · exact ⟨hr, .inr (.inl ⟨ho, Except.ok.inj (h.symm.trans (decode_cfgl hr ho))⟩)⟩
  · exact ⟨hr, .inr (.inr ⟨ho, kind, hw, Except.ok.inj (h.symm.trans (decode_cfg hr ho hw))⟩)⟩

end Decoder

/-! ### Which words decode (R70), and the fields that count (R72) -/

/-- Settles O4: a header that is none of the reserved ones decodes. -/
theorem invalidInExactlyThreeCases : Obligations.InvalidInExactlyThreeCases := by
  refine fun c => ⟨fun ⟨e, he⟩ => ?_, decode_reserved⟩
  rcases header_cases c with hres | ⟨hr, ho | ho | ⟨ho, kind, hw⟩⟩
  · exact hres
  · exact absurd (he.symm.trans (decode_proc hr ho)) nofun
  · exact absurd (he.symm.trans (decode_cfgl hr ho)) nofun
  · exact absurd (he.symm.trans (decode_cfg hr ho hw)) nofun

/-- Settles O6: the decoder's equations on a word packed from its fields. -/
theorem ignoredFieldsHaveNoEffect : Obligations.IgnoredFieldsHaveNoEffect := by
  intro wf a b w kind
  refine ⟨?_, ?_, ?_⟩
  · simp [decode_proc]
  · simp [decode_cfgl]
  · simp [decode_cfg (kind := kind)]

/-- A configure of the primary form uses every field (R62, R75). -/
theorem encode_pseudoCfg (f r : Word) (w : F64) (kind : Waveform) :
    encode (pseudoCfg f w kind r) = packCommand 0 2 kind.code f r w := by
  cases kind <;> rfl

/-- Settles O2: each kind of decodable header fixes the instruction, and so its canonical encoding. -/
theorem encodeDecodeCanonical : Obligations.EncodeDecodeCanonical := by
  intro c i h
  obtain ⟨-, ⟨ho, rfl⟩ | ⟨ho, rfl⟩ | ⟨ho, kind, hw, rfl⟩⟩ := decode_ok_cases h
  · simp [encode, ho]
  · simp [encode, ho]
  · simp [encode_pseudoCfg, ho, hw]

/-! ### The map of the header byte (R69) -/

/-- The fields of the header are the digits of the header byte (R61). -/
theorem header_fields_toNat (c : Command) :
    (rsvField c).toNat = (headerByte c).toNat / 16 ∧ (opField c).toNat = (headerByte c).toNat / 4 % 4 ∧
    (wfField c).toNat = (headerByte c).toNat % 4 := by
  have hc := headerByte_toNat c
  have ho := (opField c).isLt
  have hw := (wfField c).isLt
  omega

/-- Settles O5: in each range the header byte fixes the fields on which the decoder branches. -/
theorem headerByteMap : Obligations.HeaderByteMap := by
  intro c
  obtain ⟨hrsv, hop, hwf⟩ := header_fields_toNat c
  refine ⟨fun h => ?proc, fun h h' => ?cfgl, fun h => ?sd, fun h => ?sc, fun h => ?sq, fun h => ?waveform,
    fun h h' => ?operation, fun h => ?bits⟩
  case proc => exact decode_proc (by bv_omega) (by bv_omega)
  case cfgl => exact decode_cfgl (by bv_omega) (by bv_omega)
  case sd =>
    have hcode : wfField c = 0 := by bv_omega
    exact decode_cfg (kind := .sd) (by bv_omega) (by bv_omega) hcode
  case sc =>
    have hcode : wfField c = 1 := by bv_omega
    exact decode_cfg (kind := .sc) (by bv_omega) (by bv_omega) hcode
  case sq =>
    have hcode : wfField c = 2 := by bv_omega
    exact decode_cfg (kind := .sq) (by bv_omega) (by bv_omega) hcode
  case waveform => exact decode_reservedWaveform (by bv_omega) (by bv_omega) (by bv_omega)
  case operation => exact decode_reservedOperation (by bv_omega) (by bv_omega)
  case bits => exact decode_reservedBits (by bv_omega)

/-! ### The rows of the opcode table (R68) -/

/-- Two words are the same when all their fields are (R61). -/
theorem packCommand_inj {rsv rsv' : BitVec 4} {op op' wf wf' : BitVec 2} {a a' b b' : Word} {w w' : F64} :
    packCommand rsv op wf a b w = packCommand rsv' op' wf' a' b' w' ↔
      rsv = rsv' ∧ op = op' ∧ wf = wf' ∧ a = a' ∧ b = b' ∧ w = w' := by
  refine ⟨fun h => ⟨?_, ?_, ?_, ?_, ?_, ?_⟩, fun ⟨hr, ho, hwf, ha, hb, hw⟩ => by rw [hr, ho, hwf, ha, hb, hw]⟩
  · simpa using congrArg rsvField h
  · simpa using congrArg opField h
  · simpa using congrArg wfField h
  · simpa using congrArg aField h
  · simpa using congrArg bField h
  · simpa using congrArg wField h

/-- A mask works field by field. -/
theorem packCommand_and (rsv rsv' : BitVec 4) (op op' wf wf' : BitVec 2) (a a' b b' : Word) (w w' : F64) :
    packCommand rsv op wf a b w &&& packCommand rsv' op' wf' a' b' w' =
      packCommand (rsv &&& rsv') (op &&& op') (wf &&& wf') (a &&& a') (b &&& b') (w &&& w') := by
  simp only [packCommand, ← BitVec.and_append]

/-- The row of a mnemonic whose mask holds `rsv`, `op` and the bits `mask` of `wf`. -/
def headerRow (mnemonic : String) (op wf mask : BitVec 2) : OpcodeRow :=
  ⟨mnemonic, packCommand 0 op wf 0 0 0, packCommand 0xF 3 mask 0 0 0⟩

/-- Every row of the table tests the header alone. -/
theorem opcodeTable_eq : opcodeTable =
    [headerRow "PROC" 0 0 0, headerRow "CFGL" 1 0 0, headerRow "CFG.SD" 2 0 3, headerRow "CFG.SC" 2 1 3,
      headerRow "CFG.SQ" 2 2 3] := by
  decide

@[simp] theorem headerRow_mnemonic (mnemonic : String) (op wf mask : BitVec 2) :
    (headerRow mnemonic op wf mask).mnemonic = mnemonic := rfl

theorem headerRow_selects (mnemonic : String) (op wf mask : BitVec 2) (c : Command) :
    (headerRow mnemonic op wf mask).selects c = true ↔
      rsvField c = 0 ∧ opField c = op ∧ wfField c &&& mask = wf := by
  have hr : ∀ rsv : BitVec 4, rsv &&& 0xF = rsv := by decide
  have ho : ∀ op : BitVec 2, op &&& 3 = op := by decide
  conv_lhs => rw [OpcodeRow.selects, headerRow, ← packCommand_fields c]
  rw [beq_iff_eq, packCommand_and, packCommand_inj, hr, ho]
  simp

/-- The row of a configure of the primary form selects the words of its waveform code. -/
theorem cfgRow_selects (mnemonic : String) (kind : Waveform) (c : Command) :
    (headerRow mnemonic 2 kind.code 3).selects c = true ↔
      rsvField c = 0 ∧ opField c = 2 ∧ wfField c = kind.code := by
  have hmask : ∀ wf : BitVec 2, wf &&& 3 = wf := by decide
  rw [headerRow_selects, hmask]

/-- A word that a row selects decodes. -/
theorem decode_ok_of_selects {c : Command} {r : OpcodeRow} (hr : r ∈ opcodeTable) (h : r.selects c = true) :
    ∃ i, decode c = .ok i := by
  have hcfg {mnemonic : String} {kind : Waveform} (h : (headerRow mnemonic 2 kind.code 3).selects c = true) :
      ∃ i, decode c = .ok i := by
    obtain ⟨hrsv, hop, hwf⟩ := (cfgRow_selects ..).mp h
    exact ⟨_, decode_cfg hrsv hop hwf⟩
  rw [opcodeTable_eq] at hr
  simp only [List.mem_cons, List.not_mem_nil, or_false] at hr
  rcases hr with rfl | rfl | rfl | rfl | rfl
  · obtain ⟨hrsv, hop, -⟩ := (headerRow_selects ..).mp h
    exact ⟨_, decode_proc hrsv hop⟩
  · obtain ⟨hrsv, hop, -⟩ := (headerRow_selects ..).mp h
    exact ⟨_, decode_cfgl hrsv hop⟩
  · exact hcfg (kind := .sd) h
  · exact hcfg (kind := .sc) h
  · exact hcfg (kind := .sq) h

/-- The rows that select a decodable word are those of its instruction's mnemonic. -/
theorem selects_iff_mnemonic {c : Command} {i : Instr} (h : decode c = .ok i) {r : OpcodeRow}
    (hr : r ∈ opcodeTable) : r.selects c = true ↔ r.mnemonic = i.mnemonic := by
  revert r
  rw [opcodeTable_eq]
  obtain ⟨hrsv, ⟨hop, rfl⟩ | ⟨hop, rfl⟩ | ⟨hop, kind, hwf, rfl⟩⟩ := decode_ok_cases h
  · simp [headerRow_selects, hrsv, hop, Instr.mnemonic]
  · simp [headerRow_selects, hrsv, hop, Instr.mnemonic]
  · cases kind <;> simp [headerRow_selects, hrsv, hop, hwf, Instr.mnemonic, pseudoCfg, Waveform.code]

/-- Every instruction's mnemonic is in the table. -/
theorem exists_row (i : Instr) : ∃ r ∈ opcodeTable, r.mnemonic = i.mnemonic := by
  cases i <;> simp [opcodeTable, Instr.mnemonic]

/-- No two rows have one mnemonic. -/
theorem row_eq_of_mnemonic : ∀ r ∈ opcodeTable, ∀ q ∈ opcodeTable, r.mnemonic = q.mnemonic → r = q := by
  decide

/-- Settles O3: the rows that select a word are told apart by their mnemonics. -/
theorem decodeMatchesOpcodeTable : Obligations.DecodeMatchesOpcodeTable := by
  intro c
  refine ⟨⟨fun ⟨i, hi⟩ => ?_, fun ⟨r, hr, hs⟩ => decode_ok_of_selects hr hs⟩,
    fun i hi r hr => selects_iff_mnemonic hi hr, fun r hr q hq hsr hsq => ?_⟩
  · obtain ⟨r, hr, hm⟩ := exists_row i
    exact ⟨r, hr, (selects_iff_mnemonic hi hr).mpr hm⟩
  · obtain ⟨i, hi⟩ := decode_ok_of_selects hr hsr
    have hmr := (selects_iff_mnemonic hi hr).mp hsr
    have hmq := (selects_iff_mnemonic hi hq).mp hsq
    exact row_eq_of_mnemonic r hr q hq (hmr.trans hmq.symm)

end Sys2Proof
end

section
/-! PROOFS. What a host writes and what the port refuses (spec 30_encoding.md R71, R75). -/

namespace Sys2Proof.Machine

/-- Settles O9: the expansions are the assembler's equations. -/
theorem assemblerExpansions : Obligations.AssemblerExpansions := by
  refine ⟨fun f w r => ⟨rfl, rfl, rfl⟩, fun n i => ?_, rfl⟩
  simp [assemble, commandTransaction]

/-- A command presented with no reset beside it goes to the command port (R60, R211). -/
theorem step_command {s : State} {c : Command} {rest : List Transaction}
    (hp : s.pending = ⟨false, some c⟩ :: rest) : step s = runCommand c (s.take rest) := by
  simp [step, hp, serve]

/-- Settles O13: after a reset the command port answers the decoder's reason. -/
theorem invalidWordRefused : Obligations.InvalidWordRefused := by
  intro s c rest why hw hp hd
  rw [step_command hp]
  simp [runCommand, hw, hd]

end Sys2Proof.Machine
end

section
/-! PROOFS. What `roundLow` packs is the nearest datum, a tie at the even pattern, an overflow at infinity (spec
42_numerics.md R146, R147). -/

namespace Sys2Proof.Machine

/-! ### Signs and values -/

theorem cast_quantaPerOne_pos : (0 : ℚ) < quantaPerOne := Nat.cast_pos.mpr quantaPerOne_pos

/-- The factor that a sign bit stands for (R146). -/
def signOf (negative : Bool) : ℤ := if negative then -1 else 1

@[simp] theorem signOf_false : signOf false = 1 := rfl
@[simp] theorem signOf_true : signOf true = -1 := rfl

theorem signOf_mul_self (b : Bool) : signOf b * signOf b = 1 := by cases b <;> rfl

theorem abs_cast_signOf (b : Bool) : |((signOf b : ℤ) : ℚ)| = 1 := by cases b <;> simp

theorem signOf_bne (a b : Bool) : signOf (a != b) = signOf a * signOf b := by cases a <;> cases b <;> rfl

theorem quanta_eq_signOf (x : F64) : quanta x = signOf (signBit x) * magnitude x := by
  unfold quanta
  cases signBit x <;> simp

theorem natAbs_quanta (x : F64) : (quanta x).natAbs = magnitude x := by
  rw [quanta_eq_signOf, Int.natAbs_mul]
  cases signBit x <;> simp

theorem natAbs_signOf_mul_quanta (negative : Bool) (x : F64) :
    (signOf negative * quanta x).natAbs = magnitude x := by
  rw [Int.natAbs_mul, natAbs_quanta]
  cases negative <;> simp

theorem value_eq_signOf (x : F64) : value x = signOf (signBit x) * magnitude x / quantaPerOne := by
  rw [value_eq_quanta, quanta_eq_signOf]
  push_cast
  rfl

/-! ### The nearest integer, a tie to the even one -/

section HalfEven
variable (n : Nat) {d : Nat} (hd : 0 < d)
include hd

theorem two_mul_abs_sub_roundHalfEven_le : 2 * |(n : ℤ) - roundHalfEven n d * d| ≤ d := by
  obtain ⟨hlo, hhi⟩ := roundHalfEven_near n hd
  zify at hlo hhi
  have habs : |(n : ℤ) - roundHalfEven n d * d| * 2 = |2 * (n : ℤ) - 2 * (roundHalfEven n d * d)| := by
    rw [← mul_sub, abs_mul, abs_two, mul_comm]
  rw [mul_comm, habs, abs_le]
  constructor <;> linarith

/-- Every other integer is at least half away. -/
theorem le_two_mul_abs_sub_of_ne {j : ℤ} (hj : j ≠ roundHalfEven n d) : (d : ℤ) ≤ 2 * |(n : ℤ) - j * d| := by
  have hnear := two_mul_abs_sub_roundHalfEven_le n hd
  have hgap : (d : ℤ) ≤ |(roundHalfEven n d - j) * d| := by
    rw [abs_mul, Nat.abs_cast]
    exact le_mul_of_one_le_left (Int.natCast_nonneg d) (Int.one_le_abs (sub_ne_zero.mpr (Ne.symm hj)))
  have htri : |((roundHalfEven n d : ℤ) - j) * d| ≤ |(n : ℤ) - j * d| + |(n : ℤ) - roundHalfEven n d * d| := by
    rw [show ((roundHalfEven n d : ℤ) - j) * d = (n - j * d) - (n - roundHalfEven n d * d) by ring]
    exact abs_sub _ _
  linarith

theorem abs_sub_roundHalfEven_le (j : ℤ) : |(n : ℤ) - roundHalfEven n d * d| ≤ |(n : ℤ) - j * d| := by
  by_cases hj : j = roundHalfEven n d
  · rw [hj]
  · have hnear := two_mul_abs_sub_roundHalfEven_le n hd
    have hfar := le_two_mul_abs_sub_of_ne n hd hj
    linarith

/-- What lies below a multiple of `d` that is at most `n` is farther from `n` than the rounded multiple. -/
theorem abs_sub_roundHalfEven_lt {c x : ℤ} (hc : c * d ≤ n) (hx : x < c * d) :
    |(n : ℤ) - roundHalfEven n d * d| < |(n : ℤ) - x| :=
  calc |(n : ℤ) - roundHalfEven n d * d| ≤ |(n : ℤ) - c * d| := abs_sub_roundHalfEven_le n hd c
    _ = n - c * d := abs_of_nonneg (sub_nonneg.mpr hc)
    _ < n - x := sub_lt_sub_left hx _
    _ ≤ |(n : ℤ) - x| := le_abs_self _

/-- Where another integer is equally near, the even one is taken. -/
theorem roundHalfEven_even_of_tie {j : ℤ} (hj : j ≠ roundHalfEven n d)
    (htie : |(n : ℤ) - j * d| = |(n : ℤ) - roundHalfEven n d * d|) : roundHalfEven n d % 2 = 0 := by
  have hfar := le_two_mul_abs_sub_of_ne n hd hj
  rw [htie] at hfar
  have hdiv : ((n / d : Nat) : ℤ) * d + (n % d : Nat) = n := by exact_mod_cast Nat.div_add_mod' n d
  have hmod := Nat.mod_lt n hd
  unfold roundHalfEven at hfar ⊢
  split at hfar
  · next hlow =>
    rw [← hdiv, add_sub_cancel_left, Nat.abs_cast] at hfar
    omega
  · next hlow =>
    split at hfar
    · next hhigh =>
      rw [← hdiv, Nat.cast_add, add_mul, Nat.cast_one, one_mul, add_sub_add_left_eq_sub,
        abs_of_neg (by omega)] at hfar
      omega
    · next hhigh =>
      rw [if_neg hlow, if_neg hhigh]
      omega

end HalfEven

/-! ### The finite datum that `roundLow` gives is nearest, a tie at the even pattern -/

/-- A magnitude is a multiple of a power of two, or fits below 52 bits at that spacing. -/
theorem dvd_magnitude_or_magnitude_lt (y : F64) (k : Nat) : 2 ^ k ∣ magnitude y ∨ magnitude y < 2 ^ 52 * 2 ^ k := by
  have hf := fracField_lt y
  have hsig : (if expField y = 0 then fracField y else 2 ^ 52 + fracField y) < 2 ^ 53 := by split <;> omega
  rw [magnitude_eq]
  rcases Nat.lt_or_ge (expField y - 1) k with hlt | hge
  · refine .inr ?_
    calc _ < 2 ^ 53 * 2 ^ (expField y - 1) := Nat.mul_lt_mul_of_pos_right hsig (by positivity)
      _ = 2 ^ 52 * 2 ^ (expField y - 1 + 1) := by ring
      _ ≤ 2 ^ 52 * 2 ^ k := Nat.mul_le_mul_left _ (Nat.pow_le_pow_right (by decide) hlt)
  · exact .inl (Dvd.dvd.mul_left (Nat.pow_dvd_pow 2 hge) _)

theorem roundLow_of_lt_infLow {n d : Nat} (h : roundLow n d < infLow) :
    roundLow n d = spacingLog n d * 2 ^ 52 + roundHalfEven n (d * 2 ^ spacingLog n d) := by
  rw [roundLow_eq] at h ⊢
  omega

/-- No whole number of quanta that is a datum's is nearer to `n / d` than the rounded one; where another is
equally near, the pattern taken is even. -/
theorem roundLow_nearest (negative : Bool) {n d : Nat} (hd : 0 < d) (h : roundLow n d < infLow) (y : F64)
    {z : ℤ} (hz : z.natAbs = magnitude y) :
    |(n : ℤ) - magnitude (packF64 negative (roundLow n d)) * d| ≤ |(n : ℤ) - z * d| ∧
    (z ≠ magnitude (packF64 negative (roundLow n d)) →
      |(n : ℤ) - z * d| = |(n : ℤ) - magnitude (packF64 negative (roundLow n d)) * d| →
      roundLow n d % 2 = 0) := by
  have hmag := magnitude_roundLow negative h
  have hlow := roundLow_of_lt_infLow h
  have hsig := (significand_bounds n d).2
  rw [hmag]
  generalize spacingLog n d = k at *
  have hD : 0 < d * 2 ^ k := by positivity
  have hM : ((roundHalfEven n (d * 2 ^ k) * 2 ^ k : Nat) : ℤ) * d =
      roundHalfEven n (d * 2 ^ k) * (d * 2 ^ k : Nat) := by push_cast; ring
  rw [hM]
  by_cases hdvd : 2 ^ k ∣ magnitude y
  · obtain ⟨j, rfl⟩ : (2 ^ k : ℤ) ∣ z := by
      rw [← Int.natAbs_dvd_natAbs, hz]
      exact_mod_cast hdvd
    have hj : 2 ^ k * j * (d : ℤ) = j * (d * 2 ^ k : Nat) := by push_cast; ring
    rw [hj]
    refine ⟨abs_sub_roundHalfEven_le n hD j, fun hne htie => ?_⟩
    have hne' : j ≠ roundHalfEven n (d * 2 ^ k) := by
      rintro rfl
      exact hne (by push_cast; ring)
    have heven := roundHalfEven_even_of_tie n hD hne' htie
    omega
  · have hlt : z < 2 ^ 52 * 2 ^ k :=
      calc z ≤ magnitude y := hz ▸ Int.le_natAbs
        _ < 2 ^ 52 * 2 ^ k := by exact_mod_cast (dvd_magnitude_or_magnitude_lt y k).resolve_left hdvd
    have hk : k ≠ 0 := by
      rintro rfl
      exact hdvd (one_dvd _)
    have hn : (2 ^ 52 : ℤ) * (d * 2 ^ k : Nat) ≤ n := by
      exact_mod_cast (Nat.le_div_iff_mul_le hD).mp (hsig.resolve_left hk)
    have hzd : z * d < (2 ^ 52 : ℤ) * (d * 2 ^ k : Nat) :=
      calc z * d < 2 ^ 52 * 2 ^ k * d := mul_lt_mul_of_pos_right hlt (by exact_mod_cast hd)
        _ = (2 ^ 52 : ℤ) * (d * 2 ^ k : Nat) := by push_cast; ring
    have hfar := abs_sub_roundHalfEven_lt n hD hn hzd
    exact ⟨hfar.le, fun _ htie => absurd htie hfar.ne'⟩

/-! ### Rounding at a known spacing -/

/-- With 53 + `i` bits before the point, a power of two beside them only moves the exponent, so that a rounding of
large numbers is one of small numbers. -/
theorem roundLow_mul_two_pow {a d i : Nat} (j : Nat) (hlo : 2 ^ (52 + i) * d ≤ a) (hhi : a < 2 ^ (53 + i) * d) :
    roundLow (a * 2 ^ j) d = min ((i + j) * 2 ^ 52 + roundHalfEven a (d * 2 ^ i)) infLow := by
  have hd : 0 < d := Nat.pos_of_ne_zero fun h0 => by simp [h0] at hhi
  have hle : 2 ^ (52 + i + j) ≤ a * 2 ^ j / d := (Nat.le_div_iff_mul_le hd).mpr <|
    calc 2 ^ (52 + i + j) * d = 2 ^ (52 + i) * d * 2 ^ j := by ring
      _ ≤ a * 2 ^ j := Nat.mul_le_mul_right _ hlo
  have hlt : a * 2 ^ j / d < 2 ^ (52 + i + j + 1) := (Nat.div_lt_iff_lt_mul hd).mpr <|
    calc a * 2 ^ j < 2 ^ (53 + i) * d * 2 ^ j := Nat.mul_lt_mul_of_pos_right hhi (by positivity)
      _ = 2 ^ (52 + i + j + 1) * d := by ring
  have hne : a * 2 ^ j / d ≠ 0 := (lt_of_lt_of_le (by positivity) hle).ne'
  have hspacing : spacingLog (a * 2 ^ j) d = i + j := by
    unfold spacingLog
    rw [(Nat.log2_eq_iff hne).mpr ⟨hle, hlt⟩]
    omega
  rw [roundLow_eq, hspacing, pow_add, ← Nat.mul_assoc, roundHalfEven_scale _ _ (by positivity)]

theorem spacingLog_le {n d k : Nat} (h : n / d < 2 ^ (k + 53)) : spacingLog n d ≤ k := by
  unfold spacingLog
  rcases Nat.eq_zero_or_pos (n / d) with h0 | h0
  · rw [h0, Nat.log2_zero]
    exact Nat.zero_le _
  · have := (Nat.log2_lt h0.ne').mpr h
    omega

/-! ### Overflow -/

/-- `2^1024 - 2^970`, from where on a magnitude rounds to infinity, in quanta (R147). -/
def overflowQuanta : Nat := (2 ^ 54 - 1) * 2 ^ 2044

theorem overflowQuanta_pos : 0 < overflowQuanta := Nat.mul_pos (by decide) (by positivity)

theorem overflowQuanta_le : overflowQuanta ≤ 2 ^ (2045 + 53) :=
  calc overflowQuanta ≤ 2 ^ 54 * 2 ^ 2044 := Nat.mul_le_mul_right _ (by decide)
    _ = 2 ^ (2045 + 53) := by rw [← pow_add]

theorem two_pow_mul_quantaPerOne_le : 2 ^ 53 * quantaPerOne ≤ overflowQuanta :=
  Nat.mul_le_mul (by decide) (pow_le_pow_right₀ one_le_two (by decide))

/-- The least overflow is a tie, and the pattern of infinity is even. -/
theorem roundLow_overflowQuanta : roundLow overflowQuanta 1 = infLow := by
  rw [overflowQuanta, roundLow_mul_two_pow (i := 1) 2044 (by decide) (by decide)]
  decide

theorem roundLow_overflow {n d : Nat} (hd : 0 < d) (h : overflowQuanta * d ≤ n) : roundLow n d = infLow := by
  have hat : roundLow (overflowQuanta * d) d = infLow := by
    have hscale := roundLow_scale overflowQuanta 1 hd
    rwa [Nat.one_mul, roundLow_overflowQuanta] at hscale
  exact Nat.le_antisymm (roundLow_le n d) (hat ▸ roundLow_mono h)

theorem roundLow_lt_infLow {n d : Nat} (hd : 0 < d) (h : n < overflowQuanta * d) : roundLow n d < infLow := by
  have hq : n / d < 2 ^ (2045 + 53) :=
    lt_of_lt_of_le ((Nat.div_lt_iff_lt_mul hd).mpr h) overflowQuanta_le
  have hk : spacingLog n d ≤ 2045 := spacingLog_le hq
  have hm := (roundedSignificand_bounds n d).1
  have hnear := (roundHalfEven_near n (d := d * 2 ^ spacingLog n d) (by positivity)).2
  rw [roundLow_eq]
  rcases Nat.lt_or_ge (spacingLog n d) 2045 with hlt | hge
  · exact lt_of_le_of_lt (Nat.min_le_left _ _) (by unfold infLow; omega)
  · have hk' : spacingLog n d = 2044 + 1 := Nat.le_antisymm hk hge
    unfold overflowQuanta at h
    rw [hk', pow_succ 2 2044] at hm hnear ⊢
    generalize (2 : Nat) ^ 2044 = p at h hm hnear ⊢
    have hne : roundHalfEven n (d * (p * 2)) ≠ 2 ^ 53 := by
      intro he
      rw [he, show d * (p * 2) = 2 * (p * d) by ring] at hnear
      rw [Nat.mul_assoc] at h
      omega
    exact lt_of_le_of_lt (Nat.min_le_left _ _) (by unfold infLow; omega)

theorem roundLow_lt_infLow_of_lt {n : Nat} (h : n < 2 ^ 53 * quantaPerOne) : roundLow n 1 < infLow := by
  apply roundLow_lt_infLow Nat.one_pos
  rw [Nat.mul_one]
  exact lt_of_lt_of_le h two_pow_mul_quantaPerOne_le

theorem overflowQuanta_div : (overflowQuanta : ℚ) / quantaPerOne = 2 ^ 1024 - 2 ^ 970 := by
  have hq : (quantaPerOne : ℚ) ≠ 0 := cast_quantaPerOne_pos.ne'
  have hexp : (2 : ℚ) ^ 2044 = 2 ^ 970 * quantaPerOne := by
    rw [quantaPerOne, Nat.cast_pow, Nat.cast_ofNat, ← pow_add]
  rw [div_eq_iff hq, overflowQuanta, Nat.cast_mul, Nat.cast_pow, Nat.cast_ofNat, hexp,
    show (2 : ℚ) ^ 1024 = 2 ^ 54 * 2 ^ 970 by rw [← pow_add]]
  generalize (2 : ℚ) ^ 970 = a
  push_cast
  ring

/-! ### `roundLow` is `RN` (R147) -/

/-- The distance of a datum from `± n / d` quanta. -/
theorem abs_sub_value (negative : Bool) (n : Nat) {d : Nat} (hd : 0 < d) (y : F64) :
    |signOf negative * ((n : ℚ) / d) / quantaPerOne - value y| =
      ((|(n : ℤ) - signOf negative * quanta y * d| : ℤ) : ℚ) / (d * quantaPerOne) := by
  have hq := cast_quantaPerOne_pos
  have hd' : (0 : ℚ) < d := Nat.cast_pos.mpr hd
  have hs : (signOf negative : ℚ) * signOf negative = 1 := by exact_mod_cast signOf_mul_self negative
  have hdiff : signOf negative * ((n : ℚ) / d) / quantaPerOne - value y =
      signOf negative * (n - signOf negative * quanta y * d) / (d * quantaPerOne) := by
    rw [value_eq_quanta, mul_sub, ← mul_assoc, ← mul_assoc, hs]
    field_simp
  rw [hdiff, abs_div, abs_mul, abs_cast_signOf, one_mul, abs_of_pos (mul_pos hd' hq)]
  push_cast
  rfl

theorem getLsbD_zero_packF64 (negative : Bool) {low : Nat} (h : low < 2 ^ 63) (heven : low % 2 = 0) :
    (packF64 negative low).getLsbD 0 = false := by
  rw [BitVec.getLsbD, toNat_packF64 negative h, Nat.testBit_zero, decide_eq_false_iff_not]
  split <;> omega

/-- The overflow test of R147, in quanta. -/
theorem overflow_le_abs_iff (negative : Bool) (n : Nat) {d : Nat} (hd : 0 < d) :
    2 ^ 1024 - 2 ^ 970 ≤ |signOf negative * ((n : ℚ) / d) / quantaPerOne| ↔ overflowQuanta * d ≤ n := by
  have hq := cast_quantaPerOne_pos
  have hd' : (0 : ℚ) < d := Nat.cast_pos.mpr hd
  rw [← overflowQuanta_div, abs_div, abs_mul, abs_cast_signOf, one_mul, abs_of_pos hq,
    abs_of_nonneg (div_nonneg (Nat.cast_nonneg n) hd'.le), div_le_div_iff_of_pos_right hq, le_div_iff₀ hd',
    ← Nat.cast_mul, Nat.cast_le]

theorem decide_signOf_mul_div_neg (negative : Bool) {n d : Nat} (hn : n ≠ 0) (hd : 0 < d) :
    decide (signOf negative * ((n : ℚ) / d) / quantaPerOne < 0) = negative := by
  have hpos : (0 : ℚ) < n / d / quantaPerOne :=
    div_pos (div_pos (Nat.cast_pos.mpr (Nat.pos_of_ne_zero hn)) (Nat.cast_pos.mpr hd))
      cast_quantaPerOne_pos
  rw [mul_div_assoc]
  cases negative
  · exact decide_eq_false (by rw [signOf_false, Int.cast_one, one_mul]; exact hpos.le.not_gt)
  · exact decide_eq_true (by rw [signOf_true, Int.cast_neg, Int.cast_one, neg_one_mul]; exact neg_neg_of_pos hpos)

/-- Two data with the same number of quanta, each with the sign factor before it, have one value. -/
theorem value_eq_of_signOf_mul_quanta (negative : Bool) {x y : F64}
    (h : signOf negative * quanta x = signOf negative * quanta y) : value x = value y := by
  have hne : signOf negative ≠ 0 := by cases negative <;> decide
  rw [value_eq_quanta, value_eq_quanta, mul_left_cancel₀ hne h]

/-- R147: the pattern that `roundLow` packs is `RN` of `± n / d` quanta. -/
theorem isRounded_roundLow (negative : Bool) (n : Nat) {d : Nat} (hd : 0 < d) :
    IsRounded (signOf negative * ((n : ℚ) / d) / quantaPerOne) (packF64 negative (roundLow n d)) := by
  unfold IsRounded
  split
  · next h =>
    have hle := (overflow_le_abs_iff negative n hd).mp h
    have hn : n ≠ 0 := by
      have := Nat.mul_pos overflowQuanta_pos hd
      omega
    rw [decide_signOf_mul_div_neg negative hn hd, roundLow_overflow hd hle]
    rfl
  · next h =>
    have hlow := roundLow_lt_infLow hd (not_le.mp (mt (overflow_le_abs_iff negative n hd).mpr h))
    have hl : roundLow n d < 2 ^ 63 := lt_trans hlow infLow_lt
    have hpos : (0 : ℚ) < d * quantaPerOne :=
      mul_pos (Nat.cast_pos.mpr hd) cast_quantaPerOne_pos
    have hx : signOf negative * quanta (packF64 negative (roundLow n d)) =
        magnitude (packF64 negative (roundLow n d)) := by
      rw [quanta_eq_signOf, signBit_packF64 negative hl, ← mul_assoc, signOf_mul_self, one_mul]
    have hnearest := fun y => roundLow_nearest negative hd hlow y (natAbs_signOf_mul_quanta negative y)
    refine ⟨isFinite_packF64 negative hlow, fun y _ => ?_, fun y _ hne htie => ?_, fun hr _ => ?_⟩
    · rw [abs_sub_value negative n hd, abs_sub_value negative n hd, hx, div_le_div_iff_of_pos_right hpos,
        Int.cast_le]
      exact (hnearest y).1
    · rw [abs_sub_value negative n hd, abs_sub_value negative n hd, hx, div_left_inj' hpos.ne',
        Int.cast_inj] at htie
      refine getLsbD_zero_packF64 negative hl ((hnearest y).2 (fun hz => hne ?_) htie)
      exact value_eq_of_signOf_mul_quanta negative (hz.trans hx.symm)
    · rw [signBit_packF64 negative hl, decide_signOf_mul_div_neg negative _ hd]
      rintro rfl
      exact hr (by rw [Nat.cast_zero, zero_div, mul_zero, zero_div])

end Sys2Proof.Machine
end

section
/-! PROOFS. Products, quotients and integers as binary64 data (spec 42_numerics.md R152, R153, R156, R157). -/

namespace Sys2Proof.Machine

/-! ### Products and quotients of finite data are `RN` of the exact ones (R147, R152, R153) -/

theorem magnitude_eq_zero_of_isZero {x : F64} (h : isZero x = true) : magnitude x = 0 := by
  simp only [isZero, Bool.and_eq_true, beq_iff_eq] at h
  rw [magnitude, if_pos h.1, h.2]

theorem isZero_of_magnitude_eq_zero {x : F64} (h : magnitude x = 0) : isZero x = true := by
  rw [magnitude] at h
  split at h
  · next he => simp [isZero, he, h]
  · exact absurd h (by positivity)

/-- A zero product included: 0 is its own rounding. -/
theorem isRounded_fmul {x y : F64} (hx : isFinite x = true) (hy : isFinite y = true) (free : F64) :
    IsRounded (value x * value y) (fmul free x y) := by
  have hround := isRounded_roundLow (signBit x != signBit y) (magnitude x * magnitude y) quantaPerOne_pos
  have hval : value x * value y = signOf (signBit x != signBit y) *
      (((magnitude x * magnitude y : Nat) : ℚ) / quantaPerOne) / quantaPerOne := by
    rw [value_eq_signOf, value_eq_signOf, signOf_bne, Int.cast_mul, Nat.cast_mul]
    ring
  rwa [fmul_finite hx hy, hval]

/-- A zero dividend included: 0 is its own rounding. -/
theorem isRounded_fdiv {x y : F64} (hx : isFinite x = true) (hy : isFinite y = true) (h : isZero y = false)
    (free : F64) : IsRounded (value x / value y) (fdiv free x y) := by
  have hmag : magnitude y ≠ 0 := fun h0 => by simp [isZero_of_magnitude_eq_zero h0] at h
  have hround := isRounded_roundLow (signBit x != signBit y) (magnitude x * quantaPerOne)
    (Nat.pos_of_ne_zero hmag)
  have hval : value x / value y = signOf (signBit x != signBit y) *
      (((magnitude x * quantaPerOne : Nat) : ℚ) / magnitude y) / quantaPerOne := by
    have hq : (quantaPerOne : ℚ) ≠ 0 := cast_quantaPerOne_pos.ne'
    rw [value_eq_signOf, value_eq_signOf, signOf_bne, Int.cast_mul, Nat.cast_mul]
    cases signBit y <;> field_simp <;> simp
  rwa [fdiv_finite hx hy free h, hval]

/-! ### Rounding and packing keep the order -/

theorem roundLow_zero {d : Nat} (hd : 0 < d) : roundLow 0 d = 0 := by
  have h := roundLow_exact (k := 0) (m := 0) hd (by decide) (.inl rfl) (Nat.zero_le _)
  rwa [Nat.zero_mul, Nat.zero_mul] at h

/-- A larger denominator rounds no higher. -/
theorem roundLow_anti (n : Nat) {d e : Nat} (hd : 0 < d) (h : d ≤ e) : roundLow n e ≤ roundLow n d := by
  rw [← roundLow_scale n e hd, ← roundLow_scale n d (Nat.lt_of_lt_of_le hd h), Nat.mul_comm d e]
  exact roundLow_mono (Nat.mul_le_mul_left n h)

/-- The order of positive patterns is that of their magnitudes (R146). -/
theorem magnitude_packF64_mono {a b : Nat} (h : a ≤ b) (hb : b < 2 ^ 63) :
    magnitude (packF64 false a) ≤ magnitude (packF64 false b) := by
  have ha : a < 2 ^ 63 := Nat.lt_of_le_of_lt h hb
  unfold magnitude
  rw [expField_packF64 false ha, expField_packF64 false hb, fracField_packF64 false ha,
    fracField_packF64 false hb]
  rcases (Nat.div_le_div_right h : a / 2 ^ 52 ≤ b / 2 ^ 52).eq_or_lt with he | hlt
  · have hf : a % 2 ^ 52 ≤ b % 2 ^ 52 := by omega
    rw [he]
    split
    · exact hf
    · exact Nat.mul_le_mul_right _ (Nat.add_le_add_left hf _)
  · have hf := Nat.mod_lt a (show 2 ^ 52 > 0 by decide)
    rw [if_neg (show b / 2 ^ 52 ≠ 0 by omega)]
    calc _ ≤ 2 ^ 52 * 2 ^ (a / 2 ^ 52) := by
          split
          · next h0 => rw [h0]; omega
          · next h0 =>
            obtain ⟨e, he⟩ := Nat.exists_eq_succ_of_ne_zero h0
            rw [he, Nat.succ_eq_add_one, Nat.add_sub_cancel, Nat.pow_succ' (n := e), ← Nat.mul_assoc]
            exact Nat.mul_le_mul_right _ (by omega)
      _ ≤ 2 ^ 52 * 2 ^ (b / 2 ^ 52 - 1) :=
          Nat.mul_le_mul_left _ (Nat.pow_le_pow_right (by decide) (Nat.le_sub_one_of_lt hlt))
      _ ≤ _ := Nat.mul_le_mul_right _ (Nat.le_add_right _ _)

theorem value_packF64_mono {a b : Nat} (h : a ≤ b) (hb : b < 2 ^ 63) :
    value (packF64 false a) ≤ value (packF64 false b) := by
  have hmag := magnitude_packF64_mono h hb
  rw [value_eq_quanta, value_eq_quanta, quanta_packF64 false (Nat.lt_of_le_of_lt h hb), quanta_packF64 false hb,
    div_le_div_iff_of_pos_right cast_quantaPerOne_pos, Int.cast_le]
  exact Int.ofNat_le.mpr hmag

theorem roundLow_magnitude_one {x : F64} (h : isFinite x = true) :
    roundLow (magnitude x) 1 = expField x * 2 ^ 52 + fracField x := by
  have hround := roundLow_magnitude h Nat.one_pos
  rwa [Nat.mul_one] at hround

/-! ### Some data of given fields (R146) -/

theorem magnitude_of_normal {x : F64} {e : Nat} (he : expField x = e + 1) :
    magnitude x = (2 ^ 52 + fracField x) * 2 ^ e := by
  rw [magnitude_eq, he, if_neg (Nat.succ_ne_zero e), Nat.add_sub_cancel]

/-- 2^-54 is 2^1020 quanta. -/
theorem quantaPerOne_eq : quantaPerOne = 2 ^ 54 * 2 ^ 1020 := by rw [← pow_add, quantaPerOne]

theorem magnitude_onePointZero : magnitude onePointZero = quantaPerOne := by
  have hf : 2 ^ 52 + fracField onePointZero = 2 ^ 52 := by decide
  rw [magnitude_of_normal (e := 1022) (by decide), hf, ← pow_add, quantaPerOne]

theorem magnitude_twoPi : magnitude twoPi = 0x1921FB54442D18 * 2 ^ 1024 := by
  have hf : 2 ^ 52 + fracField twoPi = 0x1921FB54442D18 := by decide
  rw [magnitude_of_normal (e := 1024) (by decide), hf]

/-! ### Integers are exact data (R156, R157) -/

/-- A magnitude that is a multiple of its own spacing is not rounded. -/
theorem magnitude_roundLow_of_dvd (negative : Bool) {n : Nat} (h : roundLow n 1 < infLow)
    (hdvd : 2 ^ spacingLog n 1 ∣ n) : magnitude (packF64 negative (roundLow n 1)) = n := by
  obtain ⟨m, hm⟩ := hdvd
  rw [magnitude_roundLow negative h, Nat.one_mul]
  generalize spacingLog n 1 = k at hm ⊢
  rw [hm, Nat.mul_comm (2 ^ k) m, roundHalfEven_mul m (by positivity)]

theorem two_pow_dvd_quantaPerOne {k : Nat} (h : k ≤ 1074) : 2 ^ k ∣ quantaPerOne := pow_dvd_pow 2 h

section OfInteger
variable {z : ℤ} (h : z.natAbs < 2 ^ 53)
include h

theorem roundLow_ofInteger_lt : roundLow (z.natAbs * quantaPerOne) 1 < infLow :=
  roundLow_lt_infLow_of_lt (Nat.mul_lt_mul_of_pos_right h quantaPerOne_pos)

theorem isFinite_ofInteger : isFinite (ofInteger z) = true := isFinite_packF64 _ (roundLow_ofInteger_lt h)

theorem signBit_ofInteger : signBit (ofInteger z) = decide (z < 0) :=
  signBit_packF64 _ (Nat.lt_trans (roundLow_ofInteger_lt h) infLow_lt)

theorem magnitude_ofInteger : magnitude (ofInteger z) = z.natAbs * quantaPerOne := by
  have hspacing : spacingLog (z.natAbs * quantaPerOne) 1 ≤ 1074 := by
    apply spacingLog_le
    rw [Nat.div_one]
    calc z.natAbs * quantaPerOne < 2 ^ 53 * quantaPerOne := Nat.mul_lt_mul_of_pos_right h quantaPerOne_pos
      _ = 2 ^ (1074 + 53) := by rw [pow_add, Nat.mul_comm, quantaPerOne]
  exact magnitude_roundLow_of_dvd _ (roundLow_ofInteger_lt h) ((two_pow_dvd_quantaPerOne hspacing).mul_left _)

theorem value_ofInteger : value (ofInteger z) = z := by
  have hq : (quantaPerOne : ℚ) ≠ 0 := cast_quantaPerOne_pos.ne'
  have hz : signOf (decide (z < 0)) * |z| = z := by
    rcases lt_or_ge z 0 with hneg | hpos
    · simp [hneg, abs_of_neg hneg]
    · simp [not_lt.mpr hpos, abs_of_nonneg hpos]
  rw [value_eq_signOf, signBit_ofInteger h, magnitude_ofInteger h, Nat.cast_mul, ← mul_assoc,
    mul_div_cancel_right₀ _ hq, Nat.cast_natAbs]
  exact_mod_cast hz

end OfInteger

theorem toNat_pos_of_ne_zero {v : Word} (h : v ≠ 0) : 0 < v.toNat :=
  Nat.pos_of_ne_zero fun h0 => h (BitVec.eq_of_toNat_eq h0)

section U2f
variable (n : Word)

theorem natAbs_toNat_lt : (n.toNat : ℤ).natAbs < 2 ^ 53 := by
  have := n.isLt
  omega

theorem isFinite_u2f : isFinite (u2f n) = true := isFinite_ofInteger (natAbs_toNat_lt n)

theorem signBit_u2f : signBit (u2f n) = false :=
  (signBit_ofInteger (natAbs_toNat_lt n)).trans (decide_eq_false (by omega))

theorem magnitude_u2f : magnitude (u2f n) = n.toNat * quantaPerOne := magnitude_ofInteger (natAbs_toNat_lt n)

theorem value_u2f : value (u2f n) = n.toNat := by
  rw [u2f, value_ofInteger (natAbs_toNat_lt n), Int.cast_natCast]

theorem isZero_u2f (h : n ≠ 0) : isZero (u2f n) = false := by
  rw [Bool.eq_false_iff]
  intro hz
  have hmag := magnitude_eq_zero_of_isZero hz
  rw [magnitude_u2f] at hmag
  exact (Nat.mul_pos (toNat_pos_of_ne_zero h) quantaPerOne_pos).ne' hmag

end U2f

end Sys2Proof.Machine
end

section
/-! PROOFS. The configure instructions (spec 40_configure.md) and the weights they leave (10_state.md section 3). -/

namespace Sys2Proof.Machine

/-! ### The delta of `CFG.SC` (R92) -/

theorem floatDelta_of_ne {r : Word} (h : r ≠ 0) (draw free free' : F64) (f : Word) :
    floatDelta draw free free' f r = fdiv free' (fmul free twoPi (u2f f)) (u2f r) := if_neg h

theorem isFinite_twoPi : isFinite twoPi = true := by decide

theorem fmul_twoPi_u2f (free : F64) (f : Word) :
    fmul free twoPi (u2f f) = packF64 false (roundLow (magnitude twoPi * f.toNat) 1) := by
  have hsign : signBit twoPi = false := by decide
  rw [fmul_finite isFinite_twoPi (isFinite_u2f f), magnitude_u2f, signBit_u2f, hsign, ← Nat.mul_assoc,
    ← roundLow_scale _ 1 quantaPerOne_pos, Nat.one_mul]
  rfl

/-- The product at the largest frequency. -/
theorem roundLow_twoPi_mul_max : roundLow (magnitude twoPi * (2 ^ 32 - 1)) 1 = largestDelta.toNat := by
  rw [magnitude_twoPi, Nat.mul_right_comm, roundLow_mul_two_pow (i := 32) 1024 (by decide) (by decide)]
  decide

theorem roundLow_twoPi_mul_lt {f : Nat} (h : f ≤ 2 ^ 32 - 1) : roundLow (magnitude twoPi * f) 1 < infLow :=
  calc roundLow (magnitude twoPi * f) 1 ≤ largestDelta.toNat :=
        roundLow_twoPi_mul_max ▸ roundLow_mono (Nat.mul_le_mul_left _ h)
    _ < infLow := by decide

theorem toNat_le (v : Word) : v.toNat ≤ 2 ^ 32 - 1 := Nat.le_sub_one_of_lt v.isLt

theorem isFinite_fmul_twoPi_u2f (free : F64) (f : Word) : isFinite (fmul free twoPi (u2f f)) = true := by
  rw [fmul_twoPi_u2f]
  exact isFinite_packF64 false (roundLow_twoPi_mul_lt (toNat_le f))

/-- What the low 63 bits of the delta hold: the product rounded, then the quotient rounded. -/
def deltaLow (f r : Nat) : Nat :=
  roundLow (magnitude (packF64 false (roundLow (magnitude twoPi * f) 1))) r

theorem floatDelta_eq {r : Word} (h : r ≠ 0) (draw free free' : F64) (f : Word) :
    floatDelta draw free free' f r = packF64 false (deltaLow f.toNat r.toNat) := by
  have hsign := signBit_packF64 false (Nat.lt_trans (roundLow_twoPi_mul_lt (toNat_le f)) infLow_lt)
  rw [floatDelta_of_ne h, fdiv_finite (isFinite_fmul_twoPi_u2f free f) (isFinite_u2f r) _ (isZero_u2f r h),
    fmul_twoPi_u2f, hsign, signBit_u2f, magnitude_u2f, roundLow_scale _ _ quantaPerOne_pos]
  rfl

theorem deltaLow_mono {f f' r r' : Nat} (hf : f ≤ f') (hf' : f' ≤ 2 ^ 32 - 1) (hr : 0 < r') (hr' : r' ≤ r) :
    deltaLow f r ≤ deltaLow f' r' :=
  Nat.le_trans (roundLow_anti _ hr hr') <| roundLow_mono <|
    magnitude_packF64_mono (roundLow_mono (Nat.mul_le_mul_left _ hf))
      (Nat.lt_trans (roundLow_twoPi_mul_lt hf') infLow_lt)

theorem packF64_largestDelta : packF64 false largestDelta.toNat = largestDelta := by decide

/-- The largest frequency at the smallest rate, whose division changes nothing (R92). -/
theorem deltaLow_max : deltaLow (2 ^ 32 - 1) 1 = largestDelta.toNat := by
  rw [deltaLow, roundLow_twoPi_mul_max, packF64_largestDelta, roundLow_magnitude_one (by decide)]
  decide

/-- The smallest frequency above 0 at the largest rate (R92). -/
theorem deltaLow_min : deltaLow 1 (2 ^ 32 - 1) = smallestDelta.toNat := by
  have hproduct : packF64 false (roundLow (magnitude twoPi * 1) 1) = twoPi := by
    rw [Nat.mul_one, roundLow_magnitude_one isFinite_twoPi]
    decide
  have hsplit : 0x1921FB54442D18 * 2 ^ 1024 = 0x1921FB54442D18 * 2 ^ 32 * 2 ^ 992 := by
    rw [Nat.mul_assoc, ← pow_add]
  rw [deltaLow, hproduct, magnitude_twoPi, hsplit,
    roundLow_mul_two_pow (i := 0) 992 (by decide) (by decide)]
  decide

/-- A zero frequency gives +0.0 (R92). -/
theorem floatDelta_zero {r : Word} (h : r ≠ 0) (draw free free' : F64) :
    floatDelta draw free free' 0 r = 0x0000000000000000 := by
  have hmag : magnitude (packF64 false 0) = 0 := by decide
  rw [floatDelta_eq h, show (0 : Word).toNat = 0 from rfl, deltaLow, Nat.mul_zero, roundLow_zero Nat.one_pos, hmag,
    roundLow_zero (toNat_pos_of_ne_zero h)]
  rfl

/-- Settles O35: the delta grows with the frequency and falls with the rate, so its bounds are those at the
largest frequency and the smallest rate, and the other way round. -/
theorem floatDeltaRange : Obligations.FloatDeltaRange := by
  intro draw free free' f r hr
  have hr' := toNat_pos_of_ne_zero hr
  have hle : deltaLow f.toNat r.toNat ≤ largestDelta.toNat :=
    deltaLow_max ▸ deltaLow_mono (toNat_le f) le_rfl Nat.one_pos hr'
  have hlargest : largestDelta.toNat < infLow := by decide
  have hlow : deltaLow f.toNat r.toNat < infLow := Nat.lt_of_le_of_lt hle hlargest
  have hl := Nat.lt_trans hlow infLow_lt
  rw [floatDelta_eq hr]
  refine ⟨isFinite_packF64 false hlow, signBit_packF64 false hl, ?_, fun hf => ?_⟩
  · exact packF64_largestDelta ▸ value_packF64_mono hle (Nat.lt_trans hlargest infLow_lt)
  · have hpack : packF64 false smallestDelta.toNat = smallestDelta := by decide
    have hge : smallestDelta.toNat ≤ deltaLow f.toNat r.toNat :=
      deltaLow_min ▸ deltaLow_mono (toNat_pos_of_ne_zero hf) (toNat_le f) hr' (toNat_le r)
    exact hpack ▸ value_packF64_mono hge hl

/-- Settles O34: both operations of the delta are `RN` of the exact ones on finite operands. -/
theorem cfgScEffect : Obligations.CfgScEffect := by
  intro s f r w hr
  refine ⟨fmul (s.drawNaN .deltaProduct) twoPi (u2f f), _, rfl, ?_, ?_, fun hf => ?_⟩
  · rw [← value_u2f]
    exact isRounded_fmul isFinite_twoPi (isFinite_u2f f) _
  · rw [← value_u2f, floatDelta_of_ne hr]
    exact isRounded_fdiv (isFinite_fmul_twoPi_u2f _ f) (isFinite_u2f r) (isZero_u2f r hr) _
  · rw [hf]
    exact floatDelta_zero hr _ _ _

/-! ### The integer delta (R90, R91, R93, R96) -/

theorem topByte_eq (v : Word) : topByte v = BitVec.ofNat 8 ((v.toNat >>> 24) &&& 0xFF) := by
  apply BitVec.eq_of_toNat_eq
  have hand : v.toNat >>> 24 &&& 0xFF = v.toNat >>> 24 % 2 ^ 8 := Nat.and_two_pow_sub_one_eq_mod _ 8
  rw [topByte, BitVec.extractLsb'_toNat, BitVec.toNat_ofNat, hand, Nat.mod_mod]

theorem integerDelta_of_ne {r : Word} (h : r ≠ 0) (draw : Byte) (f : Word) :
    integerDelta draw f r = BitVec.ofNat 8 (f.toNat * 256 / r.toNat) := if_neg h

/-- Settles O19: `idelta` is the natural quotient modulo 256, and below 2^24 the product has 32 bits. -/
theorem integerDeltaFloorsAndAliases : Obligations.IntegerDeltaFloorsAndAliases := by
  intro f r _
  have htoNat : (idelta f r).toNat = f.toNat * 256 / r.toNat % 256 := BitVec.toNat_ofNat _ _
  refine ⟨?_, fun hf => ?_⟩
  · have hfloor : ⌊((f.toNat * 256 : Nat) : ℚ) / r.toNat⌋ = ((f.toNat * 256 / r.toNat : Nat) : ℤ) :=
      Rat.floor_natCast_div_natCast _ _
    rw [Nat.cast_mul, Nat.cast_ofNat] at hfloor
    rw [htoNat, hfloor, Int.natCast_mod, Nat.cast_ofNat]
  · have hproduct : (f * 256).toNat = f.toNat * 256 := by
      rw [BitVec.toNat_mul]
      exact Nat.mod_eq_of_lt (by simp; omega)
    rw [htoNat, hproduct]

/-! ### The next states -/

/-- Settles O31: the top byte is the target's bits 31..24. -/
theorem cfglEffect : Obligations.CfglEffect := by
  intro s targetDelta w
  rw [exec_cfgl, topByte_eq]
  rfl

/-- Settles O32: at a rate above 0 the delta is no draw. -/
theorem cfgSdEffect : Obligations.CfgSdEffect := by
  intro s f r w hr
  rw [exec_cfgSd, integerDelta_of_ne hr]
  rfl

/-- Settles O33: at a rate above 0 the delta is no draw. -/
theorem cfgSqEffect : Obligations.CfgSqEffect := by
  intro s f r w hr
  rw [exec_cfgSq, integerDelta_of_ne hr]
  rfl

/-- Settles O36: at rate 0 both deltas are the draws. -/
theorem rateZeroDrawsTheDelta : Obligations.RateZeroDrawsTheDelta :=
  fun _ _ _ => ⟨rfl, rfl, rfl⟩

/-- What a configure does, said once: it writes the mix and one of the two deltas, and both are functions of its
operands and the number of draws alone (R94, R95). -/
theorem exec_configure {i : Instr} (hi : ∀ x, i ≠ .proc x) :
    (∃ kind w, ∃ d : Nat → Byte, kind ≠ .sc ∧
      ∀ s, exec i s = .next ((s.setMix kind w).setDi (d s.draws))) ∨
    (∃ w, ∃ d : Nat → F64, ∀ s, exec i s = .next ((s.setMix .sc w).setDf (d s.draws))) := by
  cases i with
  | proc x => exact absurd rfl (hi x)
  | cfgl f w => exact .inl ⟨.sd, w, fun _ => topByte f, by decide, fun _ => rfl⟩
  | cfgSd f w r =>
    exact .inl ⟨.sd, w, fun n => integerDelta (Config.drawU8 .deltaInteger n) f r, by decide, fun _ => rfl⟩
  | cfgSc f w r =>
    exact .inr ⟨w, fun n => floatDelta (Config.drawF64 .deltaFloat n) (Config.drawNaN .deltaProduct n)
      (Config.drawNaN .deltaQuotient n) f r, fun _ => rfl⟩
  | cfgSq f w r =>
    exact .inl ⟨.sq, w, fun n => integerDelta (Config.drawU8 .deltaInteger n) f r, by decide, fun _ => rfl⟩

/-- Settles O37: a configure of either kind reads of the state no more than the number of draws. -/
theorem configureReadsNoRegister : Obligations.ConfigureReadsNoRegister := by
  intro i s s' hi hdraws
  rcases exec_configure hi with ⟨kind, w, d, hk, hexec⟩ | ⟨w, d, hexec⟩
  · exact ⟨_, _, hexec s, hexec s', by simp [hdraws, hk, State.drawNaN_eq]⟩
  · exact ⟨_, _, hexec s, hexec s', by simp [hdraws, State.drawNaN_eq]⟩

/-- Two zero deltas make a bypass (R111). -/
theorem State.bypass_of_deltas_zero {s : State} (hdi : s.di = 0) (hdf : s.df = 0x0000000000000000) :
    s.bypass = true := by
  have hfeq : feq 0x0000000000000000 zeroPointZero = true := by decide
  rw [State.bypass, hdi, hdf, hfeq, beq_self_eq_true, Bool.true_and]

/-- Settles O38: the first configure makes `DF` zero, the second makes `DI` zero. -/
theorem twoConfiguresRestoreBypass : Obligations.TwoConfiguresRestoreBypass := by
  intro s w w' r x hr
  refine ⟨_, rfl, rfl, rfl, congrArg _ (State.process_of_bypass _ x ?_)⟩
  have hdi : topByte 0 = 0 := by decide
  exact State.bypass_of_deltas_zero hdi (floatDelta_zero hr _ _ _)

/-! ### The two weights sum to 1.0 (R94, R150, R151) -/

theorem signBit_fneg (x : F64) : signBit (fneg x) = !signBit x := by
  simp [signBit, fneg]

theorem quanta_fneg (x : F64) : quanta (fneg x) = -quanta x := by
  obtain ⟨he, hf⟩ := fields_fneg x
  unfold quanta magnitude
  rw [he, hf, signBit_fneg]
  cases signBit x <;> simp

/-- A weight in [0, 1] is a number of quanta up to those of 1. -/
theorem UnitWeight.quanta_eq {w : F64} (h : UnitWeight w) :
    quanta w = magnitude w ∧ magnitude w ≤ quantaPerOne := by
  obtain ⟨-, hlo, hhi⟩ := h
  have hq := cast_quantaPerOne_pos
  rw [value_eq_quanta, le_div_iff₀ hq, zero_mul] at hlo
  rw [value_eq_quanta, div_le_one hq] at hhi
  have hlo' : 0 ≤ quanta w := by exact_mod_cast hlo
  have hhi' : quanta w ≤ quantaPerOne := by exact_mod_cast hhi
  have habs := natAbs_quanta w
  omega

/-- What the low 63 bits of `1.0 - w` hold, for `w` of `m` quanta. -/
def complementLow (m : Nat) : Nat := roundLow (quantaPerOne - m) 1

theorem complementLow_lt (m : Nat) : complementLow m < infLow :=
  roundLow_lt_infLow_of_lt <|
    calc quantaPerOne - m ≤ quantaPerOne := Nat.sub_le _ _
      _ < 2 ^ 53 * quantaPerOne := lt_mul_of_one_lt_left quantaPerOne_pos (by decide)

theorem fsub_one_unitWeight {w : F64} (h : UnitWeight w) (free : F64) :
    fsub free onePointZero w = packF64 false (complementLow (magnitude w)) := by
  obtain ⟨hquanta, hle⟩ := h.quanta_eq
  have hone : isFinite onePointZero = true := by decide
  have hsign : signBit onePointZero = false := by decide
  have hq : quanta onePointZero = quantaPerOne := by
    rw [quanta_eq_signOf, hsign, signOf_false, one_mul, magnitude_onePointZero]
  have hsum : quanta onePointZero + quanta (fneg w) = ((quantaPerOne - magnitude w : Nat) : ℤ) := by
    rw [quanta_fneg, hquanta, hq]
    omega
  rw [fsub, fadd_finite hone ((isFinite_fneg w).trans h.1), hsum, hsign, Int.natAbs_natCast, complementLow]
  split
  · next h0 => rw [Int.natCast_eq_zero.mp h0, roundLow_zero Nat.one_pos]; rfl
  · rw [decide_eq_false (by omega)]

/-- The complement's rounding error is at most 2^1020 quanta, that is 2^-54: below 1 the spacing is at most
2^-53, and at 1 nothing is rounded. -/
theorem complementLow_near {m : Nat} (h : m ≤ quantaPerOne) :
    quantaPerOne ≤ magnitude (packF64 false (complementLow m)) + m + 2 ^ 1020 ∧
    magnitude (packF64 false (complementLow m)) + m ≤ quantaPerOne + 2 ^ 1020 := by
  rcases Nat.eq_zero_or_pos m with rfl | hm
  · have hone : magnitude (packF64 false (complementLow 0)) = quantaPerOne := by
      rw [complementLow, Nat.sub_zero, ← magnitude_onePointZero, roundLow_magnitude_one (by decide)]
      exact congrArg magnitude (packF64_self onePointZero)
    rw [hone]
    omega
  · have hspacing : spacingLog (quantaPerOne - m) 1 ≤ 1020 + 1 := by
      apply spacingLog_le
      rw [Nat.div_one]
      calc quantaPerOne - m < quantaPerOne := Nat.sub_lt quantaPerOne_pos hm
        _ = 2 ^ (1020 + 1 + 53) := by rw [quantaPerOne]
    have hpow : 2 ^ spacingLog (quantaPerOne - m) 1 ≤ 2 ^ 1020 * 2 :=
      (pow_le_pow_right₀ one_le_two hspacing).trans (pow_succ 2 1020).le
    obtain ⟨hlo, hhi⟩ := magnitude_roundLow_near false Nat.one_pos (complementLow_lt m)
    rw [Nat.mul_one, Nat.one_mul] at hlo hhi
    unfold complementLow
    generalize (2 : Nat) ^ 1020 = c at hpow ⊢
    omega

/-- Within 2^-54 of 1 every sum rounds to 1.0: below 1 the tie goes to 1.0, whose pattern is even. -/
theorem roundLow_near_one {n : Nat} (hlo : quantaPerOne ≤ n + 2 ^ 1020) (hhi : n ≤ quantaPerOne + 2 ^ 1020) :
    packF64 false (roundLow n 1) = onePointZero := by
  have hat : roundLow (quantaPerOne - 2 ^ 1020) 1 = onePointZero.toNat := by
    rw [quantaPerOne_eq, ← Nat.sub_one_mul, roundLow_mul_two_pow (i := 1) 1020 (by decide) (by decide)]
    decide
  have hat' : roundLow (quantaPerOne + 2 ^ 1020) 1 = onePointZero.toNat := by
    rw [quantaPerOne_eq, ← Nat.succ_mul, roundLow_mul_two_pow (i := 2) 1020 (by decide) (by decide)]
    decide
  have hge := roundLow_mono (d := 1) (Nat.sub_le_iff_le_add.mpr hlo)
  have hle := roundLow_mono (d := 1) hhi
  rw [hat] at hge
  rw [hat'] at hle
  rw [Nat.le_antisymm hle hge]
  rfl

/-- A weight in [0, 1] and its complement make a whole number of quanta within 2^-54 of 1. -/
theorem quanta_complement_add {w : F64} (h : UnitWeight w) (free : F64) :
    ∃ n : Nat, quanta (fsub free onePointZero w) + quanta w = n ∧
      quantaPerOne ≤ n + 2 ^ 1020 ∧ n ≤ quantaPerOne + 2 ^ 1020 := by
  obtain ⟨hquanta, hle⟩ := h.quanta_eq
  refine ⟨_, ?_, complementLow_near hle⟩
  rw [fsub_one_unitWeight h, quanta_packF64 false (Nat.lt_trans (complementLow_lt _) infLow_lt), hquanta]
  rfl

theorem isFinite_complement {w : F64} (h : UnitWeight w) (free : F64) :
    isFinite (fsub free onePointZero w) = true := by
  rw [fsub_one_unitWeight h]
  exact isFinite_packF64 false (complementLow_lt _)

theorem fadd_complement {w : F64} (h : UnitWeight w) (free free' : F64) :
    fadd free' (fsub free onePointZero w) w = onePointZero := by
  obtain ⟨n, hsum, hlo, hhi⟩ := quanta_complement_add h free
  have hpos : 0 < n := by
    rw [quantaPerOne_eq] at hlo
    have : 0 < 2 ^ 1020 := by positivity
    omega
  rw [fadd_finite (isFinite_complement h free) h.1, hsum, if_neg (by omega), decide_eq_false (by omega),
    Int.natAbs_natCast]
  exact roundLow_near_one hlo hhi

theorem abs_value_complement_add_sub_one_le {w : F64} (h : UnitWeight w) (free : F64) :
    |value (fsub free onePointZero w) + value w - 1| ≤ 2 ^ (-54 : Int) := by
  obtain ⟨n, hsum, hlo, hhi⟩ := quanta_complement_add h free
  have hq := cast_quantaPerOne_pos
  have hulp : (2 : ℚ) ^ (-54 : Int) = (2 ^ 1020 : Nat) / quantaPerOne := by
    rw [quantaPerOne_eq, Nat.mul_comm, Nat.cast_mul, ← div_div, div_self (Nat.cast_ne_zero.mpr (by positivity))]
    exact two_zpow_neg_natCast 54
  rw [value_eq_quanta, value_eq_quanta, ← add_div, ← Int.cast_add, hsum, Int.cast_natCast,
    div_sub_one hq.ne', abs_div, abs_of_pos hq, hulp, div_le_div_iff_of_pos_right hq, abs_le,
    neg_le_sub_iff_le_add, sub_le_iff_le_add']
  exact_mod_cast And.intro hlo hhi

/-- Settles O39: the complement of a weight in [0, 1] is off by at most half the spacing below 1, which the
rounding of the sum takes back. -/
theorem weightSumIsOne : Obligations.WeightSumIsOne := by
  intro s i d f r w hi
  have hmix : ∃ t, exec i s = .next t ∧ t.wt = w ∧ t.wi = fsub (s.drawNaN .inputWeight) onePointZero w := by
    rcases hi with rfl | rfl | rfl | rfl <;> exact ⟨_, rfl, rfl, rfl⟩
  obtain ⟨t, hexec, rfl, hwi⟩ := hmix
  refine ⟨t, _, hexec, rfl, hwi, fun hunit => ?_⟩
  rw [hwi]
  exact ⟨fadd_complement hunit _, isFinite_complement hunit _, abs_value_complement_add_sub_one_le hunit _⟩

end Sys2Proof.Machine
end

section
/-! PROOFS. Sums, narrowing and the sine as the mix uses them (spec 42_numerics.md R150, R155, R156, R158, R160):
how far a rounding goes below 2^52, what is exact, and what is truncated. -/

namespace Sys2Proof.Machine

/-! ### Zeros (R146, R155) -/

/-- The zeros are two patterns. -/
theorem isZero_iff (x : F64) : isZero x = true ↔ x = 0x0000000000000000 ∨ x = 0x8000000000000000 := by
  constructor
  · intro h
    simp only [isZero, Bool.and_eq_true, beq_iff_eq] at h
    obtain ⟨he, hf⟩ := h
    cases hs : signBit x
    · exact .inl (eq_of_fields hs he hf)
    · exact .inr (eq_of_fields hs he hf)
  · rintro (rfl | rfl) <;> decide

/-- IEEE equality does not tell the two zeros apart. -/
theorem feq_zeroPointZero_iff (x : F64) :
    feq x zeroPointZero = true ↔ x = 0x0000000000000000 ∨ x = 0x8000000000000000 := by
  have hnan : isNaN zeroPointZero = false := by decide
  have hzero : isZero zeroPointZero = true := by decide
  constructor
  · intro h
    simp only [feq, hnan, hzero, Bool.and_eq_true, Bool.or_eq_true, beq_iff_eq, Bool.and_true] at h
    exact h.2.elim .inl (isZero_iff x).mp
  · rintro (rfl | rfl) <;> decide

/-! ### Sums of finite data are `RN` of the exact ones (R147, R150) -/

/-- A number is its sign factor times its magnitude. -/
theorem signOf_mul_abs (r : ℚ) : signOf (decide (r < 0)) * |r| = r := by
  rcases lt_or_ge r 0 with hneg | hpos
  · simp [hneg, abs_of_neg hneg]
  · simp [not_lt.mpr hpos, abs_of_nonneg hpos]

/-- A zero sum included: 0 is its own rounding. -/
theorem isRounded_fadd {x y : F64} (hx : isFinite x = true) (hy : isFinite y = true) (free : F64) :
    IsRounded (value x + value y) (fadd free x y) := by
  have hsum : value x + value y = ((quanta x + quanta y : ℤ) : ℚ) / quantaPerOne := by
    rw [value_eq_quanta, value_eq_quanta, ← add_div, Int.cast_add]
  rw [fadd_finite hx hy, hsum]
  generalize quanta x + quanta y = z
  split
  · next hz =>
    have hround := isRounded_roundLow (signBit x && signBit y) 0 Nat.one_pos
    rwa [roundLow_zero Nat.one_pos, Nat.cast_zero, zero_div, mul_zero, ← Int.cast_zero (R := ℚ), ← hz] at hround
  · have hround := isRounded_roundLow (decide (z < 0)) z.natAbs Nat.one_pos
    have hz : (signOf (decide (z < 0)) : ℚ) * ((z.natAbs : ℚ) / (1 : Nat)) = z := by
      have habs := signOf_mul_abs z
      simp only [Int.cast_lt_zero] at habs
      rwa [Nat.cast_one, div_one, Nat.cast_natAbs, Int.cast_abs]
    rwa [hz] at hround

/-- A finite left operand is the sum where the exact sum keeps its sign and rounds to its magnitude. -/
theorem fadd_eq_left {x y : F64} (hx : isFinite x = true) (hy : isFinite y = true) (free : F64) {m : Nat}
    (hm : m ≠ 0) (hsum : quanta x + quanta y = signOf (signBit x) * m)
    (hlow : roundLow m 1 = expField x * 2 ^ 52 + fracField x) : fadd free x y = x := by
  have hne : signOf (signBit x) * (m : ℤ) ≠ 0 := by cases signBit x <;> simpa using hm
  have hsign : decide (signOf (signBit x) * (m : ℤ) < 0) = signBit x := by
    cases signBit x
    · simp
    · simpa using Nat.pos_of_ne_zero hm
  have habs : (signOf (signBit x) * (m : ℤ)).natAbs = m := by
    rw [Int.natAbs_mul]
    cases signBit x <;> simp
  rw [fadd_finite hx hy, hsum, if_neg hne, hsign, habs, hlow, packF64_self]

/-- A zero of either sign adds nothing to a datum that is no NaN and not -0.0 (R117). -/
theorem fadd_zero_right {x y : F64} (hnan : isNaN x = false) (hx : x ≠ 0x8000000000000000)
    (hy : isZero y = true) (free : F64) : fadd free x y = x := by
  have hyf := isFinite_of_isZero hy
  cases hinf : isInf x
  · have hxf : isFinite x = true := by rw [isFinite_eq, hnan, hinf]; rfl
    by_cases hz : magnitude x = 0
    · have hx0 : x = 0x0000000000000000 :=
        ((isZero_iff x).mp (isZero_of_magnitude_eq_zero hz)).resolve_right hx
      subst hx0
      rcases (isZero_iff y).mp hy with rfl | rfl <;> rfl
    · refine fadd_eq_left hxf hyf free hz ?_ (roundLow_magnitude_one hxf)
      rw [quanta_eq_signOf, quanta_eq_signOf y, magnitude_eq_zero_of_isZero hy, Nat.cast_zero, mul_zero, add_zero]
  · simp [fadd, hnan, hinf, not_isNaN_of_isFinite hyf, not_isInf_of_isFinite hyf]

/-! ### A step below half the spacing (R114) -/

/-- What the low 63 bits of a finite datum hold is below those of infinity. -/
theorem low_lt_infLow {x : F64} (hx : isFinite x = true) : expField x * 2 ^ 52 + fracField x < infLow := by
  have hexp := expField_lt x
  have hf := fracField_lt x
  have hfin : expField x ≠ 2047 := by simpa [isFinite] using hx
  unfold infLow
  omega

/-- A remainder below one half is rounded off. -/
theorem roundHalfEven_mul_add {q r d : Nat} (h : 2 * r < d) : roundHalfEven (q * d + r) d = q := by
  have hr : r < d := by omega
  have hmod : (q * d + r) % d = r := by rw [Nat.mul_add_mod_self_right, Nat.mod_eq_of_lt hr]
  have hdiv : (q * d + r) / d = q := by
    rw [Nat.mul_comm, Nat.mul_add_div (by omega), Nat.div_eq_of_lt hr, Nat.add_zero]
  rw [roundHalfEven, hmod, hdiv, if_pos h]

/-- A normal datum's magnitude with less than half its spacing added rounds back. -/
theorem roundLow_magnitude_add {x : F64} (hx : isFinite x = true) {e r : Nat} (he : expField x = e + 1)
    (hr : 2 * r < 2 ^ e) : roundLow (magnitude x + r) 1 = expField x * 2 ^ 52 + fracField x := by
  have hf := fracField_lt x
  have hlo : 2 ^ (52 + e) * 1 ≤ (2 ^ 52 + fracField x) * 2 ^ e + r := by
    rw [Nat.mul_one, pow_add]
    exact (Nat.mul_le_mul_right _ (Nat.le_add_right _ _)).trans (Nat.le_add_right _ _)
  have hhi : (2 ^ 52 + fracField x) * 2 ^ e + r < 2 ^ (53 + e) * 1 :=
    calc (2 ^ 52 + fracField x) * 2 ^ e + r < (2 ^ 52 + fracField x + 1) * 2 ^ e := by rw [Nat.succ_mul]; omega
      _ ≤ 2 ^ 53 * 2 ^ e := Nat.mul_le_mul_right _ (by omega)
      _ = 2 ^ (53 + e) * 1 := by rw [Nat.mul_one, pow_add]
  have hround := roundLow_mul_two_pow 0 hlo hhi
  rw [pow_zero, Nat.mul_one, Nat.one_mul, roundHalfEven_mul_add hr] at hround
  have hlow : (e + 0) * 2 ^ 52 + (2 ^ 52 + fracField x) = expField x * 2 ^ 52 + fracField x := by
    rw [he, Nat.add_zero, Nat.succ_mul, Nat.add_assoc]
  rw [magnitude_of_normal he, hround, hlow]
  exact Nat.min_eq_left (low_lt_infLow hx).le

/-- Half the spacing at a normal datum, in quanta. -/
theorem two_zpow_half_spacing (e : Nat) :
    (2 : ℚ) ^ (((e + 1 : Nat) : ℤ) - 1076) = (2 ^ e : Nat) / (2 * quantaPerOne) := by
  have hsplit : (((e + 1 : Nat) : ℤ) - 1076) = e + -1074 + -1 := by push_cast; ring
  rw [hsplit, zpow_add₀ two_ne_zero, zpow_add₀ two_ne_zero, quantum_eq, zpow_natCast, zpow_neg_one, Nat.cast_pow,
    Nat.cast_ofNat]
  ring

theorem abs_value (x : F64) : |value x| = magnitude x / quantaPerOne := by
  rw [value_eq_signOf, abs_div, abs_mul, abs_cast_signOf, one_mul, Nat.abs_cast, Nat.abs_cast]

/-! ### How far a rounding goes (R147) -/

/-- The value of a finite datum is below the overflow bound. -/
theorem abs_value_lt {x : F64} (hx : isFinite x = true) : |value x| < 2 ^ 1024 - 2 ^ 970 := by
  have hval : value x = signOf (signBit x) * ((magnitude x : ℚ) / (1 : Nat)) / quantaPerOne := by
    rw [value_eq_signOf, Nat.cast_one, div_one]
  rw [hval]
  refine lt_of_not_ge fun hle => ?_
  have hlow := roundLow_overflow Nat.one_pos ((overflow_le_abs_iff _ _ Nat.one_pos).mp hle)
  exact (low_lt_infLow hx).ne ((roundLow_magnitude_one hx).symm.trans hlow)

/-- Where a datum has the exact value, the rounded one has it too. -/
theorem IsRounded.value_eq {r : ℚ} {x y : F64} (h : IsRounded r x) (hy : isFinite y = true) (hv : value y = r) :
    isFinite x = true ∧ value x = r := by
  subst hv
  rw [IsRounded, if_neg (abs_value_lt hy).not_ge] at h
  obtain ⟨hfin, hnearest, -⟩ := h
  have hle := hnearest y hy
  rw [sub_self, abs_zero, abs_nonpos_iff, sub_eq_zero] at hle
  exact ⟨hfin, hle.symm⟩

/-- Below 2^52 the spacing is at most 1/2. -/
theorem two_mul_spacing_le {n d : Nat} (hd : 0 < d) (h : n < 2 ^ 52 * quantaPerOne * d) :
    2 * 2 ^ spacingLog n d ≤ quantaPerOne := by
  have hspacing : spacingLog n d ≤ 1073 := by
    apply spacingLog_le
    rw [Nat.div_lt_iff_lt_mul hd]
    calc n < 2 ^ 52 * quantaPerOne * d := h
      _ = 2 ^ (1073 + 53) * d := by rw [quantaPerOne, ← pow_add]
  rw [← pow_succ', quantaPerOne]
  exact pow_le_pow_right₀ one_le_two (Nat.succ_le_succ hspacing)

/-- Half a spacing of at most 1/2, in quanta. -/
theorem four_mul_abs_sub_magnitude_le (negative : Bool) {n d : Nat} (hd : 0 < d) (h : roundLow n d < infLow)
    (hspacing : 2 * 2 ^ spacingLog n d ≤ quantaPerOne) :
    4 * |(n : ℤ) - magnitude (packF64 negative (roundLow n d)) * d| ≤ d * quantaPerOne := by
  obtain ⟨hlo, hhi⟩ := magnitude_roundLow_near negative hd h
  have hbound := Nat.mul_le_mul_left d hspacing
  generalize magnitude (packF64 negative (roundLow n d)) = m at *
  generalize 2 ^ spacingLog n d = p at *
  generalize quantaPerOne = q at *
  zify at hlo hhi hbound
  rcases abs_cases ((n : ℤ) - m * d) with ⟨habs, -⟩ | ⟨habs, -⟩ <;> rw [habs] <;> linarith

/-- Below 2^52 a rounding moves a magnitude by at most 1/4. -/
theorem abs_sub_value_roundLow_le (negative : Bool) {n d : Nat} (hd : 0 < d)
    (h : n < 2 ^ 52 * quantaPerOne * d) :
    isFinite (packF64 negative (roundLow n d)) = true ∧
    |signOf negative * ((n : ℚ) / d) / quantaPerOne - value (packF64 negative (roundLow n d))| ≤ 1 / 4 := by
  have hlow : roundLow n d < infLow := roundLow_lt_infLow hd <| h.trans_le <| Nat.mul_le_mul_right _ <|
    (Nat.mul_le_mul_right _ (by decide)).trans two_pow_mul_quantaPerOne_le
  have hx : signOf negative * quanta (packF64 negative (roundLow n d)) =
      magnitude (packF64 negative (roundLow n d)) := by
    rw [quanta_eq_signOf, signBit_packF64 negative (hlow.trans infLow_lt), ← mul_assoc, signOf_mul_self, one_mul]
  have hdq : (0 : ℚ) < d * quantaPerOne := mul_pos (Nat.cast_pos.mpr hd) cast_quantaPerOne_pos
  have hnear : (4 : ℚ) * ((|(n : ℤ) - magnitude (packF64 negative (roundLow n d)) * d| : ℤ) : ℚ) ≤
      d * quantaPerOne := by
    exact_mod_cast four_mul_abs_sub_magnitude_le negative hd hlow (two_mul_spacing_le hd h)
  rw [abs_sub_value negative n hd, hx, div_le_iff₀ hdq]
  exact ⟨isFinite_packF64 negative hlow, by linarith⟩

/-- 2^52 is far below the overflow bound. -/
theorem two_pow_le_overflow : (2 : ℚ) ^ 52 ≤ 2 ^ 1024 - 2 ^ 970 := by
  rw [← overflowQuanta_div, le_div_iff₀ cast_quantaPerOne_pos]
  exact_mod_cast (Nat.mul_le_mul_right _ (by decide)).trans two_pow_mul_quantaPerOne_le

/-- Every number below 2^52 rounds to a finite datum within 1/4. -/
theorem IsRounded.near {r : ℚ} {x : F64} (h : IsRounded r x) (hr : |r| < 2 ^ 52) :
    isFinite x = true ∧ |r - value x| ≤ 1 / 4 := by
  have hq := cast_quantaPerOne_pos
  have hden : (0 : ℚ) < r.den := Nat.cast_pos.mpr r.den_pos
  have hfrac : |r| = r.num.natAbs / r.den := by
    rw [← abs_of_pos hden, Nat.cast_natAbs, Int.cast_abs, ← abs_div, Rat.num_div_den]
  have hlt : r.num.natAbs * quantaPerOne < 2 ^ 52 * quantaPerOne * r.den := by
    rw [hfrac, div_lt_iff₀ hden] at hr
    have hr' : r.num.natAbs < 2 ^ 52 * r.den := by exact_mod_cast hr
    rw [Nat.mul_right_comm]
    exact Nat.mul_lt_mul_of_pos_right hr' quantaPerOne_pos
  have hval : signOf (decide (r < 0)) * (((r.num.natAbs * quantaPerOne : Nat) : ℚ) / r.den) / quantaPerOne = r := by
    rw [Nat.cast_mul, mul_div_right_comm (r.num.natAbs : ℚ), ← hfrac, ← mul_assoc, mul_div_cancel_right₀ _ hq.ne',
      signOf_mul_abs]
  obtain ⟨hfin, hnear⟩ := abs_sub_value_roundLow_le (decide (r < 0)) r.den_pos hlt
  rw [hval] at hnear
  rw [IsRounded, if_neg (hr.trans_le two_pow_le_overflow).not_ge] at h
  obtain ⟨hx, hnearest, -⟩ := h
  exact ⟨hx, (hnearest _ hfin).trans hnear⟩

/-! ### Integers as data (R156) -/

section I2f
variable (n : Word)

theorem natAbs_toInt_lt : n.toInt.natAbs < 2 ^ 53 := by
  have hlo := BitVec.le_toInt n
  have hhi := BitVec.toInt_lt (x := n)
  omega

theorem isFinite_i2f : isFinite (i2f n) = true := isFinite_ofInteger (natAbs_toInt_lt n)

theorem value_i2f : value (i2f n) = n.toInt := value_ofInteger (natAbs_toInt_lt n)

end I2f

/-! ### Narrowing (R158) -/

/-- A fraction dropped does not pass a positive integer bound. -/
theorem truncate_lt {q : ℚ} {b : ℤ} (hb : 0 < b) (h : q < b) : truncate q < b := by
  unfold truncate
  split
  · exact Int.floor_lt.mpr h
  · next hneg => exact lt_of_le_of_lt (Int.ceil_le.mpr (by exact_mod_cast (not_le.mp hneg).le)) hb

/-- A fraction dropped does not pass a negative integer bound. -/
theorem lt_truncate {q : ℚ} {a : ℤ} (ha : a < 0) (h : a < q) : a < truncate q := by
  unfold truncate
  split
  · next hpos => exact lt_of_lt_of_le ha (Int.floor_nonneg.mpr hpos)
  · exact Int.lt_ceil.mpr h

theorem truncate_intCast (z : ℤ) : truncate z = z := by
  unfold truncate
  split <;> simp

/-- Truncation of a datum's value is the division of its quanta that `f2i` makes. -/
theorem truncate_value (v : F64) : truncate (value v) = (quanta v).tdiv quantaPerOne := by
  have hq := cast_quantaPerOne_pos
  have hnonneg : 0 ≤ value v ↔ 0 ≤ quanta v := by
    rw [value_eq_quanta, le_div_iff₀ hq, zero_mul, Int.cast_nonneg_iff]
  unfold truncate
  split
  · next h => rw [value_eq_quanta, Rat.floor_intCast_div_natCast, Int.tdiv_eq_ediv_of_nonneg (hnonneg.mp h)]
  · next h =>
    have hneg : 0 ≤ -quanta v := by rw [hnonneg] at h; omega
    rw [value_eq_quanta, Rat.ceil_intCast_div_natCast, ← Int.tdiv_eq_ediv_of_nonneg hneg, Int.neg_tdiv, neg_neg]

theorem narrowable_iff (v : F64) :
    narrowable v = true ↔ isFinite v = true ∧ -2147483649 < value v ∧ value v < 2147483648 := by
  have hq := cast_quantaPerOne_pos
  have hlo : -2147483649 < value v ↔ -2147483649 * (quantaPerOne : ℤ) < quanta v := by
    rw [value_eq_quanta, lt_div_iff₀ hq, ← Int.cast_lt (R := ℚ)]
    generalize quantaPerOne = q
    push_cast
    rfl
  have hhi : value v < 2147483648 ↔ quanta v < 2147483648 * (quantaPerOne : ℤ) := by
    rw [value_eq_quanta, div_lt_iff₀ hq, ← Int.cast_lt (R := ℚ)]
    generalize quantaPerOne = q
    push_cast
    rfl
  rw [hlo, hhi, narrowable, Bool.and_eq_true, Bool.and_eq_true, decide_eq_true_iff, decide_eq_true_iff, and_assoc]

/-- In range, narrowing is truncation, whatever the draw. -/
theorem toInt_f2i (draw : Word) {v : F64} (hv : isFinite v = true) (hlo : -2147483649 < value v)
    (hhi : value v < 2147483648) : (f2i draw v).toInt = truncate (value v) := by
  have hlo' := lt_truncate (a := -2147483649) (by decide) (by exact_mod_cast hlo)
  have hhi' := truncate_lt (b := 2147483648) (by decide) (by exact_mod_cast hhi)
  rw [f2i_of_narrowable draw ((narrowable_iff v).mpr ⟨hv, hlo, hhi⟩), ← truncate_value]
  exact BitVec.toInt_ofInt_eq_self (by decide) (by norm_num; omega) (by norm_num; omega)

/-- A datum that holds an i32 narrows to it. -/
theorem f2i_of_value_eq (draw n : Word) {v : F64} (hv : isFinite v = true) (h : value v = n.toInt) :
    f2i draw v = n := by
  have hlo : -2147483648 ≤ n.toInt := BitVec.le_toInt n
  have hhi : n.toInt < 2147483648 := BitVec.toInt_lt (x := n)
  apply BitVec.eq_of_toInt_eq
  rw [toInt_f2i draw hv, h, truncate_intCast]
  · rw [h]; exact_mod_cast (show -2147483649 < n.toInt by omega)
  · rw [h]; exact_mod_cast hhi

/-! ### The sine of a finite operand (R160) -/

/-- A clamped pattern's low 63 bits are at most those of 1.0. -/
theorem clampToUnit_eq (v : F64) :
    ∃ low ≤ onePointZero.toNat, clampToUnit v = packF64 (signBit v) low := by
  unfold clampToUnit
  split
  · next h =>
    have hlow : expField v * 2 ^ 52 + fracField v = v.toNat % 2 ^ 63 := by
      rw [expField_eq, fracField_eq]
      omega
    exact ⟨_, h, by rw [← hlow, packF64_self]⟩
  · exact ⟨_, le_rfl, rfl⟩

/-- The sign is no part of the magnitude. -/
theorem magnitude_packF64_sign (negative : Bool) {low : Nat} (h : low < 2 ^ 63) :
    magnitude (packF64 negative low) = magnitude (packF64 false low) := by
  unfold magnitude
  rw [expField_packF64 negative h, fracField_packF64 negative h, expField_packF64 false h, fracField_packF64 false h]

theorem clampToUnit_bounds (v : F64) : isFinite (clampToUnit v) = true ∧ |value (clampToUnit v)| ≤ 1 := by
  obtain ⟨low, hle, hv⟩ := clampToUnit_eq v
  have hone : onePointZero.toNat < infLow := by decide
  have hlow := lt_of_le_of_lt hle hone
  have hpack : packF64 false onePointZero.toNat = onePointZero := by decide
  have hmag := magnitude_packF64_mono hle (hone.trans infLow_lt)
  rw [hpack, magnitude_onePointZero] at hmag
  rw [hv, abs_value, magnitude_packF64_sign _ (hlow.trans infLow_lt), div_le_one cast_quantaPerOne_pos]
  exact ⟨isFinite_packF64 _ hlow, Nat.cast_le.mpr hmag⟩

/-- SIN-RANGE. -/
theorem fsin_bounds {x : F64} (hx : isFinite x = true) : isFinite (fsin x) = true ∧ |value (fsin x)| ≤ 1 := by
  unfold fsin lawfulSin
  rw [if_pos hx]
  split
  · next hz =>
    rw [abs_value, magnitude_eq_zero_of_isZero hz, Nat.cast_zero, zero_div]
    exact ⟨hx, zero_le_one⟩
  · exact clampToUnit_bounds _

end Sys2Proof.Machine
end

section
/-! PROOFS. The process instruction (spec 41_process.md): the bypass, one sample of each waveform, the mix in
contract, and what a run of samples of the square wave returns. -/

namespace Sys2Proof.Machine

/-! ### The bypass (R111, R117) -/

theorem State.bypass_iff (s : State) : s.bypass = true ↔
    (s.di = 0 ∧ (s.df = 0x0000000000000000 ∨ s.df = 0x8000000000000000)) := by
  rw [State.bypass, Bool.and_eq_true, beq_iff_eq, feq_zeroPointZero_iff]

/-- One delta that is not zero rules the bypass out. -/
theorem State.bypass_eq_false {s : State}
    (h : s.di ≠ 0 ∨ (s.df ≠ 0x0000000000000000 ∧ s.df ≠ 0x8000000000000000)) : s.bypass = false := by
  rw [Bool.eq_false_iff, Ne, s.bypass_iff, not_and_or, not_or]
  exact h

/-- Settles O42: the test is true exactly for the two zeros, and a bypass only returns its input. -/
theorem bypassReturnsInput : Obligations.BypassReturnsInput := by
  refine ⟨fun s x hdi hdf => ?_, State.bypass_iff, by decide⟩
  rw [exec_proc, s.process_of_bypass x (s.bypass_iff.mpr ⟨hdi, hdf⟩)]
  rfl

/-! ### One sample of each waveform (R112 to R116) -/

section Sample
variable {s : State} (x : Word)

/-- A sample that is no bypass returns the mix, of the state before the phase's advance (R119). -/
theorem State.process_eq (hb : s.bypass = false) :
    s.process x = { s.synthesize.2 with responses := s.responses ++ [s.mix s.synthesize.1 x] } := by
  obtain ⟨-, -, -, -, -, -, -, hresponses, -⟩ := s.synthesize_keeps
  rw [s.process_of_not_bypass x hb, State.respond, hresponses]

theorem State.process_responses (hb : s.bypass = false) :
    (s.process x).responses = s.responses ++ [s.mix s.synthesize.1 x] := by rw [State.process_eq x hb]

end Sample

/-- Settles O43: the discrete sine is a sample that is no bypass, and its synthesis spelt out. -/
theorem sineDiscreteSample : Obligations.SineDiscreteSample := by
  intro s x hk hd
  rw [exec_proc, State.process_eq x (State.bypass_eq_false hd), s.synthesize_sd hk]
  rfl

/-- Settles O44: the same with the synthesis of the continuous sine. -/
theorem sineContinuousSample : Obligations.SineContinuousSample := by
  intro s x hk hd
  rw [exec_proc, State.process_eq x (State.bypass_eq_false hd), s.synthesize_sc hk]
  rfl

/-- Below the midpoint is bit 31 clear (R115). -/
theorem State.lowHalf_eq (s : State) : s.lowHalf = !s.phi.getLsbD 31 := by
  have hmsb : s.phi.msb = s.phi.getLsbD 31 := BitVec.msb_eq_getLsbD_last _
  rw [← hmsb, BitVec.msb_eq_decide, ← decide_not, State.lowHalf]
  exact decide_eq_decide.mpr not_le.symm

theorem State.synthesize_sq_tone (s : State) (hk : s.kind = .sq) :
    s.synthesize.1 = if s.lowHalf then int32Max else int32Min := by rw [s.synthesize_sq hk, State.synthSq]

/-- Settles O45: the level test is the test of bit 31. -/
theorem squareSample : Obligations.SquareSample := by
  intro s x hk hd
  have htone : s.synthesize.1 = if s.phi.getLsbD 31 = false then 0x7FFFFFFF else 0x80000000 := by
    rw [s.synthesize_sq_tone hk, s.lowHalf_eq]
    cases s.phi.getLsbD 31 <;> rfl
  rw [exec_proc, State.process_eq x (State.bypass_eq_false hd), htone, s.synthesize_sq hk]
  rfl

/-! ### The frame (R21 to R28, R110) -/

/-- A sample returns one word (R110). -/
theorem State.process_returns (s : State) (x : Word) : ∃ y, (s.process x).responses = s.responses ++ [y] := by
  cases hb : s.bypass
  · exact ⟨_, State.process_responses x hb⟩
  · exact ⟨x, by rw [s.process_of_bypass x hb, State.respond_responses]⟩

/-- A sample moves at most the phase of its kind (R112). -/
theorem State.process_other_phase (s : State) (x : Word) :
    (s.kind = .sc → (s.process x).phi = s.phi) ∧ (s.kind ≠ .sc → (s.process x).phf = s.phf) := by
  cases hb : s.bypass
  · rw [s.process_of_not_bypass x hb]
    rcases s.synthesize_state with ⟨hk, h⟩ | ⟨hk, h⟩ | ⟨hk, h⟩ <;> simp [h, hk]
  · simp [s.process_of_bypass x hb]

/-- Settles O46: assembled from what a sample keeps, returns, moves and presents. -/
theorem procFrame : Obligations.ProcFrame := by
  intro s x
  obtain ⟨y, hy⟩ := s.process_returns x
  obtain ⟨hdi, hdf, hwt, hwi, hkind⟩ := s.process_keeps x
  obtain ⟨hpending, hreset, hdraws, -⟩ := exec_keeps s (exec_proc s x)
  obtain ⟨hphi, hphf⟩ := s.process_other_phase x
  refine ⟨_, y, rfl, hdi, hdf, hwt, hwi, hkind, hreset, hpending, hdraws, hy, hphi, hphf, fun hk => ?_⟩
  exact (s.process_tableReads x).resolve_right fun ⟨_, hsd, _⟩ => hk hsd

/-! ### A waveform that stands still (R117) -/

/-- Settles O48: `PHI` advances by 0, `PHF` by a zero that changes no datum but -0.0, and a NaN is no zero. -/
theorem staleDeltaIsNoBypass : Obligations.StaleDeltaIsNoBypass := by
  intro s x
  refine ⟨fun hk hdi hdf hdf' => ?_, fun hk hdi hdf hnan hphf => ?_, fun hdi hnan => ?_⟩
  · have hb := State.bypass_eq_false (.inr ⟨hdf, hdf'⟩)
    have hphi : phaseAdd s.phi s.di = s.phi := by rw [hdi]; exact BitVec.add_zero _
    exact ⟨_, exec_proc s x, (State.process_phi x hb hk).trans hphi, (s.process_other_phase x).2 hk,
      State.process_responses x hb⟩
  · have hb := State.bypass_eq_false (.inl hdi)
    have hstill : (s.process x).phf = s.phf := by
      rw [State.process_eq x hb, s.synthesize_sc hk]
      exact fadd_zero_right hnan hphf ((isZero_iff _).mpr hdf) _
    exact ⟨_, exec_proc s x, (s.process_other_phase x).1 hk, hstill, State.process_responses x hb⟩
  · have hne : ∀ z, isNaN z = false → s.df ≠ z := fun z hz h => by rw [h, hz] at hnan; cases hnan
    rw [exec_proc, State.process_eq x (State.bypass_eq_false (.inr ⟨hne _ (by decide), hne _ (by decide)⟩))]

/-! ### The tone of the continuous sine (R114) -/

theorem value_int32MaxF : value int32MaxF = 2147483647 := by
  have hint : int32MaxF = i2f int32Max := by decide +kernel
  rw [hint, value_i2f]
  rfl

theorem isFinite_int32MaxF : isFinite int32MaxF = true := by decide

/-- The exact product is within 2147483647 and rounding moves it by at most 1/4, so that it narrows. -/
theorem fmul_fsin_bounds {x : F64} (hx : isFinite x = true) (free : F64) :
    isFinite (fmul free (fsin x) int32MaxF) = true ∧ -2147483648 < value (fmul free (fsin x) int32MaxF) ∧
      value (fmul free (fsin x) int32MaxF) < 2147483648 := by
  obtain ⟨hsin, hle⟩ := fsin_bounds hx
  have hexact : |value (fsin x) * value int32MaxF| ≤ 2147483647 := by
    rw [value_int32MaxF, abs_mul, abs_of_pos (by norm_num : (0 : ℚ) < 2147483647)]
    linarith
  obtain ⟨hfin, hnear⟩ := (isRounded_fmul hsin isFinite_int32MaxF free).near (hexact.trans_lt (by norm_num))
  obtain ⟨hlo, hhi⟩ := abs_le.mp hexact
  obtain ⟨hlo', hhi'⟩ := abs_le.mp hnear
  exact ⟨hfin, by linarith, by linarith⟩

/-- Settles O47: the rounded product is less than 1 beyond 2147483647 and is truncated, with any draw. -/
theorem continuousToneInRange : Obligations.ContinuousToneInRange := by
  intro x hx
  have hsin := (fsin_bounds hx).1
  obtain ⟨hfin, hlo, hhi⟩ := fmul_fsin_bounds hx 0
  have htone := fun draw => toInt_f2i draw hfin (lt_trans (by norm_num) hlo) hhi
  have htlo := lt_truncate (a := -2147483648) (by decide) (by exact_mod_cast hlo)
  have hthi := truncate_lt (b := 2147483648) (by decide) (by exact_mod_cast hhi)
  refine ⟨_, f2i 0 (fmul 0 (fsin x) int32MaxF), ?_, htone 0, ?_, ?_, fun draw free => ?_⟩
  · rw [← value_int32MaxF]
    exact isRounded_fmul hsin isFinite_int32MaxF 0
  · rw [htone]; omega
  · rw [htone]; omega
  · rw [fmul_free hsin isFinite_int32MaxF free 0]
    exact BitVec.eq_of_toInt_eq ((htone draw).trans (htone 0).symm)

/-! ### The phase that stops (R114, R181) -/

/-- Settles O53: the exact sum lies less than half a spacing from `x`, on the same side of 0. -/
theorem continuousPhaseStops : Obligations.ContinuousPhaseStops := by
  intro free x y hx hy hnormal hsign hsmall
  obtain ⟨e, he⟩ : ∃ e, expField x = e + 1 := ⟨_, (Nat.sub_add_cancel hnormal).symm⟩
  have hq := cast_quantaPerOne_pos
  have hr : 2 * magnitude y < 2 ^ e := by
    rw [he, two_zpow_half_spacing, abs_value, ← div_div, div_lt_div_iff_of_pos_right hq, lt_div_iff₀' two_pos] at hsmall
    exact_mod_cast hsmall
  have hpos : magnitude x + magnitude y ≠ 0 := by
    rw [magnitude_of_normal he]
    positivity
  refine fadd_eq_left hx hy free hpos ?_ (roundLow_magnitude_add hx he hr)
  rw [quanta_eq_signOf, quanta_eq_signOf y, ← hsign]
  push_cast
  ring

/-! ### The mix in contract (R116, R120) -/

/-- The weights of a state in contract: both finite, the input's weight not negative, the sum as near to 1 as an
i32 needs it (R29 has 2^-54). -/
theorem WeightsAgree.bounds {s : State} (hw : UnitWeight s.wt) (h : WeightsAgree s) :
    isFinite s.wi = true ∧ 0 ≤ value s.wi ∧ |value s.wi + value s.wt - 1| ≤ 1 / 10 ^ 12 := by
  obtain ⟨-, hcomplement⟩ := h
  rw [hcomplement (not_isNaN_of_isFinite hw.1) 0]
  refine ⟨isFinite_complement hw 0, ?_, (abs_value_complement_add_sub_one_le hw 0).trans (by norm_num)⟩
  rw [fsub_one_unitWeight hw, value_eq_signOf, signBit_packF64 false ((complementLow_lt _).trans infLow_lt),
    signOf_false, Int.cast_one, one_mul]
  exact div_nonneg (Nat.cast_nonneg _) cast_quantaPerOne_pos.le

/-- The values of an i32. -/
theorem cast_toInt_bounds (n : Word) : (-2147483648 : ℚ) ≤ n.toInt ∧ (n.toInt : ℚ) ≤ 2147483647 := by
  have hlo : -2147483648 ≤ n.toInt := BitVec.le_toInt n
  have hhi : n.toInt ≤ 2147483647 := Int.le_of_lt_add_one (BitVec.toInt_lt (x := n))
  exact ⟨by exact_mod_cast hlo, by exact_mod_cast hhi⟩

/-- The weighted sum of two i32 is so far in range that three roundings, by 1/4 each, keep it there. -/
theorem weighted_sum_bounds (x tone : Word) {u w : ℚ} (hu : 0 ≤ u) (hw : 0 ≤ w)
    (h : |u + w - 1| ≤ 1 / 10 ^ 12) :
    -2147483649 + 3 / 4 < x.toInt * u + tone.toInt * w ∧ x.toInt * u + tone.toInt * w < 2147483648 - 3 / 4 := by
  obtain ⟨hxlo, hxhi⟩ := cast_toInt_bounds x
  obtain ⟨htlo, hthi⟩ := cast_toInt_bounds tone
  have hxlo' := mul_le_mul_of_nonneg_right hxlo hu
  have hxhi' := mul_le_mul_of_nonneg_right hxhi hu
  have htlo' := mul_le_mul_of_nonneg_right htlo hw
  have hthi' := mul_le_mul_of_nonneg_right hthi hw
  obtain ⟨hlo, hhi⟩ := abs_le.mp h
  constructor <;> linarith

/-- An i32 times a weight is rounded by at most 1/4. -/
theorem fmul_i2f_near (n : Word) {w : F64} (hfin : isFinite w = true) (hw : 0 ≤ value w) (hw' : value w ≤ 2)
    (free : F64) : isFinite (fmul free (i2f n) w) = true ∧
      |n.toInt * value w - value (fmul free (i2f n) w)| ≤ 1 / 4 := by
  have hround := isRounded_fmul (isFinite_i2f n) hfin free
  rw [value_i2f] at hround
  refine hround.near ?_
  obtain ⟨hlo, hhi⟩ := cast_toInt_bounds n
  have hn : |(n.toInt : ℚ)| ≤ 2147483648 := abs_le.mpr ⟨hlo, by linarith⟩
  calc |n.toInt * value w| = |(n.toInt : ℚ)| * value w := by rw [abs_mul, abs_of_nonneg hw]
    _ ≤ 2147483648 * 2 := mul_le_mul hn hw' hw (by norm_num)
    _ < 2 ^ 52 := by norm_num

/-- In contract the sum of the mix is in range for every input and every tone (R120). -/
theorem State.mixSum_in_range {s : State} (hw : UnitWeight s.wt) (h : WeightsAgree s) (tone x : Word) :
    isFinite (s.mixSum tone x) = true ∧ -2147483649 < value (s.mixSum tone x) ∧
      value (s.mixSum tone x) < 2147483648 := by
  unfold State.mixSum
  obtain ⟨hfin, hwlo, hwhi⟩ := hw
  obtain ⟨hwi, hwilo, hsum⟩ := h.bounds ⟨hfin, hwlo, hwhi⟩
  obtain ⟨hlo, hhi⟩ := weighted_sum_bounds x tone hwilo hwlo hsum
  have hwihi : value s.wi ≤ 2 := by linarith [(abs_le.mp hsum).2]
  obtain ⟨hinput, hnear⟩ := fmul_i2f_near x hwi hwilo hwihi (s.drawNaN .inputProduct)
  obtain ⟨hshare, hnear'⟩ := fmul_i2f_near tone hfin hwlo (by linarith) (s.drawNaN .toneShare)
  obtain ⟨hnlo, hnhi⟩ := abs_le.mp hnear
  obtain ⟨hnlo', hnhi'⟩ := abs_le.mp hnear'
  have hround := isRounded_fadd hinput hshare (s.drawNaN .mixSum)
  obtain ⟨hmix, hmixnear⟩ := hround.near (abs_lt.mpr ⟨by linarith, by linarith⟩)
  obtain ⟨hmlo, hmhi⟩ := abs_le.mp hmixnear
  exact ⟨hmix, by linarith, by linarith⟩

/-- Settles O49: a sum in range is truncated. -/
theorem inContractMixIsSpecified : Obligations.InContractMixIsSpecified := by
  intro s x hw h
  refine ⟨fun tone => State.mixSum_in_range hw h tone x, fun hb => ?_⟩
  obtain ⟨hfin, hlo, hhi⟩ := State.mixSum_in_range hw h s.synthesize.1 x
  exact ⟨_, _, exec_proc s x, State.process_responses x hb, toInt_f2i _ hfin hlo hhi⟩

/-! ### The exact ends of the weight range (R121) -/

theorem value_onePointZero : value onePointZero = 1 := by
  have hsign : signBit onePointZero = false := by decide
  rw [value_eq_signOf, hsign, magnitude_onePointZero, signOf_false, Int.cast_one, one_mul,
    div_self cast_quantaPerOne_pos.ne']

/-- Where both weighted terms and their sum are i32, nothing of the mix is rounded. -/
theorem State.mix_of_exact {s : State} {tone x a b n : Word} (hwi : isFinite s.wi = true)
    (hwt : isFinite s.wt = true) (ha : (a.toInt : ℚ) = x.toInt * value s.wi)
    (hb : (b.toInt : ℚ) = tone.toInt * value s.wt) (hn : (n.toInt : ℚ) = a.toInt + b.toInt) :
    s.mix tone x = n := by
  have hinput := isRounded_fmul (isFinite_i2f x) hwi (s.drawNaN .inputProduct)
  have hshare := isRounded_fmul (isFinite_i2f tone) hwt (s.drawNaN .toneShare)
  rw [value_i2f] at hinput hshare
  obtain ⟨hfin, hval⟩ := hinput.value_eq (isFinite_i2f a) ((value_i2f a).trans ha)
  obtain ⟨hfin', hval'⟩ := hshare.value_eq (isFinite_i2f b) ((value_i2f b).trans hb)
  have hsum := isRounded_fadd hfin hfin' (s.drawNaN .mixSum)
  rw [hval, hval', ← ha, ← hb, ← hn] at hsum
  obtain ⟨hmix, hvalue⟩ := hsum.value_eq (isFinite_i2f n) (value_i2f n)
  exact f2i_of_value_eq _ n hmix hvalue

/-- At full weight the tone comes through. -/
theorem State.mix_full {s : State} (hwt : s.wt = 0x3FF0000000000000) (hwi : s.wi = 0x0000000000000000)
    (tone x : Word) : s.mix tone x = tone := by
  have hone : value s.wt = 1 := hwt ▸ value_onePointZero
  have hzero : value s.wi = 0 := hwi ▸ value_zero
  refine State.mix_of_exact (a := 0#32) (b := tone) (by rw [hwi]; decide) (by rw [hwt]; decide) ?_ ?_ ?_
  · rw [hzero, mul_zero, BitVec.toInt_zero, Int.cast_zero]
  · rw [hone, mul_one]
  · rw [BitVec.toInt_zero, Int.cast_zero, zero_add]

/-- At weight 0 the input comes through. -/
theorem State.mix_none {s : State} (hwt : s.wt = 0x0000000000000000) (hwi : s.wi = 0x3FF0000000000000)
    (tone x : Word) : s.mix tone x = x := by
  have hone : value s.wi = 1 := hwi ▸ value_onePointZero
  have hzero : value s.wt = 0 := hwt ▸ value_zero
  refine State.mix_of_exact (a := x) (b := 0#32) (by rw [hwi]; decide) (by rw [hwt]; decide) ?_ ?_ ?_
  · rw [hone, mul_one]
  · rw [hzero, mul_zero, BitVec.toInt_zero, Int.cast_zero]
  · rw [BitVec.toInt_zero, Int.cast_zero, add_zero]

/-- Settles O50: at both ends one weighted term is a zero and the other is exact. -/
theorem exactEndsOfWeightRange : Obligations.ExactEndsOfWeightRange := by
  intro s x hb
  refine ⟨fun hwt hwi => ⟨_, exec_proc s x, ?_⟩, fun hwt hwi => ⟨_, exec_proc s x, ?_⟩⟩
  · rw [State.process_responses x hb, State.mix_full hwt hwi]
  · rw [State.process_responses x hb, State.mix_none hwt hwi]

/-! ### The square wave's duty (R115, R123) -/

/-- `ceil(2^31 / d)` is the number of multiples of `d` below 2^31. -/
theorem lt_lowHalfSteps_iff {d : Byte} (hd : d ≠ 0) (n : Nat) : n < lowHalfSteps d ↔ n * d.toNat < 2 ^ 31 := by
  have hpos : 0 < d.toNat := Nat.pos_of_ne_zero fun h0 => hd (BitVec.eq_of_toNat_eq h0)
  rw [lowHalfSteps, ← Nat.ceilDiv_eq_add_pred_div, ← not_le, ceilDiv_le_iff_le_mul hpos, not_le, Nat.mul_comm]

/-- From `PHI` = 0 the phase after `n` samples, up to the first one past the midpoint, does not wrap. -/
theorem toNat_phase_of_le {d : Byte} (hd : d ≠ 0) {n : Nat} (hn : n ≤ lowHalfSteps d) :
    (BitVec.ofNat 32 (n * d.toNat)).toNat = n * d.toNat := by
  have hbyte := d.isLt
  rw [BitVec.toNat_ofNat]
  apply Nat.mod_eq_of_lt
  cases n with
  | zero => simp
  | succ k =>
    have hk := (lt_lowHalfSteps_iff hd k).mp hn
    rw [Nat.succ_mul]
    omega

/-- A run of samples writes no control register (R37). -/
theorem execAll_procs_keeps (xs : List Word) {s t : State} (h : execAll (xs.map .proc) s = .next t) :
    t.di = s.di ∧ t.df = s.df ∧ t.wt = s.wt ∧ t.wi = s.wi ∧ t.kind = s.kind := by
  induction xs generalizing s with
  | nil => cases h; simp
  | cons x xs ih =>
    have hkeeps := (s.take s.pending).process_keeps x
    obtain ⟨hdi, hdf, hwt, hwi, hkind⟩ := ih ((execAll_cons rfl _).symm.trans h)
    rw [hdi, hdf, hwt, hwi, hkind]
    exact hkeeps

/-- At full weight a sample of the square wave below the midpoint returns INT32_MAX. -/
theorem State.process_square_low {s : State} (x : Word) (hk : s.kind = .sq) (hb : s.bypass = false)
    (hwt : s.wt = 0x3FF0000000000000) (hwi : s.wi = 0x0000000000000000) (hlow : s.lowHalf = true) :
    (s.process x).responses = s.responses ++ [int32Max] := by
  rw [State.process_responses x hb, State.mix_full hwt hwi, s.synthesize_sq_tone hk, if_pos hlow]

/-- At full weight a run of samples of the square wave below the midpoint returns INT32_MAX at each. -/
theorem execAll_procs_square_low (xs : List Word) {s t : State} (hk : s.kind = .sq) (hd : s.di ≠ 0)
    (hwt : s.wt = 0x3FF0000000000000) (hwi : s.wi = 0x0000000000000000)
    (hlow : ∀ n < xs.length, (s.phi + BitVec.ofNat 32 (n * s.di.toNat)).toNat < 2 ^ 31)
    (h : execAll (xs.map .proc) s = .next t) :
    t.responses = s.responses ++ List.replicate xs.length int32Max := by
  induction xs generalizing s with
  | nil => cases h; simp
  | cons x xs ih =>
    have hb : (s.take s.pending).bypass = false := State.bypass_of_di_ne_zero hd
    obtain ⟨hdi, -, hwt', hwi', hkind⟩ := (s.take s.pending).process_keeps x
    have hphi := State.process_phi (s := s.take s.pending) x hb (by rw [State.take_kind, hk]; decide)
    have hlowHalf : (s.take s.pending).lowHalf = true := by
      have h0 := hlow 0 (Nat.succ_pos _)
      rw [Nat.zero_mul, BitVec.add_zero] at h0
      exact decide_eq_true h0
    have hresponse := State.process_square_low (s := s.take s.pending) x hk hb hwt hwi hlowHalf
    rw [ih (hkind.trans hk) (hdi ▸ hd) (hwt'.trans hwt) (hwi'.trans hwi) ?_ ((execAll_cons rfl _).symm.trans h),
      hresponse, State.take_responses, List.append_assoc, List.length_cons, List.replicate_succ, List.singleton_append]
    intro n hn
    rw [hphi, hdi]
    exact (phaseAdd_add_mul s.phi s.di n).symm ▸ hlow (n + 1) (Nat.succ_lt_succ hn)

/-- Settles O52: the phase after `n` samples is `n · d`, which is below the midpoint for `n < ceil(2^31 / d)`. -/
theorem squareWaveDuty : Obligations.SquareWaveDuty := by
  intro s xs x hk hd hphi hlen
  obtain ⟨t, ht, htphi⟩ := execAll_procs_phi xs (s := s) (by rw [hk]; decide) hd
  obtain ⟨hdi, -, hwt, hwi, hkind⟩ := execAll_procs_keeps xs ht
  have hphase : ∀ n ≤ lowHalfSteps s.di, (s.phi + BitVec.ofNat 32 (n * s.di.toNat)).toNat = n * s.di.toNat :=
    fun n hn => by rw [hphi, zero_add, toNat_phase_of_le hd hn]
  have htone : t.synthesize.1 = if xs.length < lowHalfSteps s.di then int32Max else int32Min := by
    rw [State.synthesize_sq_tone t (hkind.trans hk), State.lowHalf, htphi, hphase _ hlen]
    simp [lt_lowHalfSteps_iff hd]
  refine ⟨t, ht, htone, fun hwt1 hwi0 => ⟨?_, fun hend => ?_⟩⟩
  · refine execAll_procs_square_low xs hk hd hwt1 hwi0 (fun n hn => ?_) ht
    rw [hphase n (hn.le.trans hlen), ← lt_lowHalfSteps_iff hd]
    exact hn.trans_le hlen
  · have hb : t.bypass = false := State.bypass_of_di_ne_zero (hdi ▸ hd)
    obtain ⟨u, hu, hresponses⟩ := (exactEndsOfWeightRange t x hb).1 (hwt.trans hwt1) (hwi.trans hwi0)
    rw [htone, if_neg hend.ge.not_gt] at hresponses
    exact ⟨u, hu, hresponses⟩

end Sys2Proof.Machine
end

section
/-! PROOFS. Integer arithmetic, rounding and NaN results (spec 42_numerics.md R140, R142, R147, R148). -/

namespace Sys2Proof.Machine

/-! ### Integer arithmetic (R140, R142) -/

/-- Settles O17: the delta's zero extension keeps its value, and the sum has 32 bits. -/
theorem phaseAdditionWraps : Obligations.PhaseAdditionWraps := by
  intro phase delta
  have hdelta : (delta.setWidth 32).toNat = delta.toNat := BitVec.toNat_setWidth_of_le (by decide)
  rw [phaseAdd, BitVec.toNat_add, hdelta]

/-- The scaled amplitude is the table byte over 24 zero bits (R142). -/
theorem scaleAmplitude_eq_append (entry : Byte) : scaleAmplitude entry = entry ++ 0#24 := by
  have happend : (entry ++ 0#24).toInt = entry.toInt * 2 ^ 24 := by
    rw [BitVec.toInt_append, if_neg (by decide), BitVec.toNat_ofNat]
    omega
  rw [scaleAmplitude, ← happend, BitVec.ofInt_toInt]

theorem toInt_scaleAmplitude (entry : Byte) : (scaleAmplitude entry).toInt = entry.toInt * 16777216 := by
  have hlo := BitVec.le_toInt entry
  have hhi := BitVec.toInt_lt (x := entry)
  exact BitVec.toInt_ofInt_eq_self (by decide) (by norm_num; omega) (by norm_num; omega)

/-- Settles O18: the product fits, and is the byte over 24 zero bits. -/
theorem amplitudeScalingExact : Obligations.AmplitudeScalingExact := by
  intro entry
  refine ⟨toInt_scaleAmplitude entry, ?_, ?_⟩
  · rw [scaleAmplitude_eq_append, BitVec.extractLsb'_append_eq_left]
  · rw [scaleAmplitude_eq_append, BitVec.extractLsb'_append_eq_right]
    rfl

/-! ### Rounding and NaN results (R147, R148) -/

/-- Settles O20: `roundLow` is `RN` in quanta, and the quantum is 2^-1074. -/
theorem roundingIsNearestTiesToEven : Obligations.RoundingIsNearestTiesToEven := by
  intro negative n d _ hd
  have hround := isRounded_roundLow negative n hd
  have hsign : (signOf negative : ℚ) = if negative then -1 else 1 := by cases negative <;> simp
  rwa [hsign, ← mul_one_div _ (quantaPerOne : ℚ), ← quantum_eq] at hround

/-- Bits that are a NaN's are taken as they are (R148). -/
theorem nanOf_of_isNaN {p : F64} (h : isNaN p = true) : nanOf p = p := if_pos h

/-- Settles O21: every NaN pattern is the NaN of its own bits. -/
theorem nanResultIsAnyNan : Obligations.NanResultIsAnyNan := ⟨isNaN_nanOf, fun _ => nanOf_of_isNaN⟩

end Sys2Proof.Machine
end

section
/-! PROOFS. Kinds of data, sums and differences (spec 42_numerics.md R146, R147, R150, R151): infinities, zeros, and
what is exact. -/

namespace Sys2Proof.Machine

/-! ### Infinities (R146) -/

section Infinite
variable {x : F64} (h : isInf x = true)
include h

theorem fields_of_isInf : expField x = 2047 ∧ fracField x = 0 := by
  simpa [isInf] using h

theorem isNaN_of_isInf : isNaN x = false := by
  simp [isNaN, (fields_of_isInf h).2]

theorem isFinite_of_isInf : isFinite x = false := by
  simp [isFinite, (fields_of_isInf h).1]

theorem isZero_of_isInf : isZero x = false := by
  simp [isZero, (fields_of_isInf h).1]

/-- An infinity is its sign alone. -/
theorem infinity_signBit : infinity (signBit x) = x := by
  have hself := packF64_self x
  obtain ⟨he, hf⟩ := fields_of_isInf h
  rwa [he, hf] at hself

end Infinite

theorem isFinite_iff (x : F64) : isFinite x = true ↔ isNaN x = false ∧ isInf x = false := by
  rw [isFinite_eq, Bool.and_eq_true, Bool.not_eq_true', Bool.not_eq_true']

theorem isInf_infinity (negative : Bool) : isInf (infinity negative) = true := by cases negative <;> decide

theorem isZero_packF64_zero (negative : Bool) : isZero (packF64 negative 0) = true := by cases negative <;> decide

theorem eq_of_isInf {x y : F64} (hx : isInf x = true) (hy : isInf y = true) (hs : signBit x = signBit y) : x = y := by
  rw [← infinity_signBit hx, ← infinity_signBit hy, hs]

/-! ### Zeros, and data of one value (R146) -/

theorem quanta_eq_zero_iff (x : F64) : quanta x = 0 ↔ isZero x = true := by
  rw [← Int.natAbs_eq_zero, natAbs_quanta]
  exact ⟨isZero_of_magnitude_eq_zero, magnitude_eq_zero_of_isZero⟩

theorem value_of_isZero {x : F64} (h : isZero x = true) : value x = 0 := by
  rw [value_eq_quanta, (quanta_eq_zero_iff x).mpr h, Int.cast_zero, zero_div]

/-- -0.0 is the zero whose sign bit is set. -/
theorem eq_negZero_iff (x : F64) : x = 0x8000000000000000 ↔ isZero x = true ∧ signBit x = true := by
  constructor
  · rintro rfl
    decide
  · rintro ⟨hz, hs⟩
    rcases (isZero_iff x).mp hz with rfl | rfl
    · cases hs
    · rfl

theorem signBit_eq_of_quanta_ne_zero {x : F64} (h : quanta x ≠ 0) : signBit x = decide (quanta x < 0) := by
  unfold quanta at h ⊢
  cases hs : signBit x
  · simp
  · simp only [hs, if_true, neg_ne_zero] at h
    simp only [if_true]
    exact (decide_eq_true (by omega)).symm

theorem value_eq_value_iff (x y : F64) : value x = value y ↔ quanta x = quanta y := by
  rw [value_eq_quanta, value_eq_quanta, div_left_inj' cast_quantaPerOne_pos.ne', Int.cast_inj]

/-- Finite data of one value are one datum, but for the two zeros. -/
theorem quanta_eq_quanta_iff {x y : F64} (hx : isFinite x = true) (hy : isFinite y = true) :
    quanta x = quanta y ↔ x = y ∨ (isZero x = true ∧ isZero y = true) := by
  constructor
  · intro h
    by_cases hz : quanta x = 0
    · exact .inr ⟨(quanta_eq_zero_iff x).mp hz, (quanta_eq_zero_iff y).mp (h ▸ hz)⟩
    · have hmag : magnitude x = magnitude y := by rw [← natAbs_quanta, h, natAbs_quanta]
      have hsign : signBit x = signBit y := by
        rw [signBit_eq_of_quanta_ne_zero hz, signBit_eq_of_quanta_ne_zero (h ▸ hz), h]
      rw [← packF64_self x, ← packF64_self y, ← roundLow_magnitude_one hx, ← roundLow_magnitude_one hy, hmag, hsign]
      exact .inl rfl
  · rintro (rfl | ⟨hzx, hzy⟩)
    · rfl
    · rw [(quanta_eq_zero_iff x).mpr hzx, (quanta_eq_zero_iff y).mpr hzy]

/-! ### Exact results (R147) -/

/-- A whole number of quanta that is a multiple of a power of two and has at most 53 bits above it is a datum's. -/
theorem exists_quanta_eq {z : ℤ} {k : Nat} (hk : k ≤ 1074) (hdvd : 2 ^ k ∣ z.natAbs) (hz : z.natAbs < 2 ^ (k + 53)) :
    ∃ x : F64, isFinite x = true ∧ quanta x = z := by
  have hlow : roundLow z.natAbs 1 < infLow := roundLow_lt_infLow_of_lt <|
    calc z.natAbs < 2 ^ 53 * 2 ^ k := by rwa [← pow_add, Nat.add_comm]
      _ ≤ 2 ^ 53 * quantaPerOne := Nat.mul_le_mul_left _ (pow_le_pow_right₀ one_le_two hk)
  have hspacing : spacingLog z.natAbs 1 ≤ k := spacingLog_le ((Nat.div_one _).trans_lt hz)
  have hmag := magnitude_roundLow_of_dvd (decide (z < 0)) hlow ((pow_dvd_pow 2 hspacing).trans hdvd)
  refine ⟨_, isFinite_packF64 (decide (z < 0)) hlow, ?_⟩
  rw [quanta_packF64 _ (hlow.trans infLow_lt), hmag]
  simp only [decide_eq_true_eq]
  split <;> omega

/-- From `2^(52 + k)` quanta on a magnitude is a multiple of `2^k`, and so is its distance from 1. -/
theorem exists_quanta_eq_one_sub_of_lt {x : F64} {k : Nat} (hk : k ≤ 1074) (hx : 2 ^ 52 * 2 ^ k ≤ magnitude x)
    (hlt : ((quantaPerOne : ℤ) - magnitude x).natAbs < 2 ^ (k + 53)) :
    ∃ y : F64, isFinite y = true ∧ quanta y = quantaPerOne - magnitude x := by
  have hdvd : 2 ^ k ∣ magnitude x := (dvd_magnitude_or_magnitude_lt x k).resolve_right hx.not_gt
  have hdvd' : ((2 ^ k : Nat) : ℤ) ∣ quantaPerOne - magnitude x :=
    dvd_sub (Int.natCast_dvd_natCast.mpr (two_pow_dvd_quantaPerOne hk)) (Int.natCast_dvd_natCast.mpr hdvd)
  exact exists_quanta_eq hk (Int.natCast_dvd.mp hdvd') hlt

/-- Between 1/2 and 2 the distance from 1 is a datum: below 1 the spacing is 2^1021 quanta and the distance at
most 2^1073, from 1 on the spacing is 2^1022 and the distance at most 2^1074 (R151). -/
theorem exists_quanta_eq_one_sub {x : F64} (hlo : quantaPerOne ≤ 2 * magnitude x)
    (hhi : magnitude x ≤ 2 * quantaPerOne) :
    ∃ y : F64, isFinite y = true ∧ quanta y = quantaPerOne - magnitude x := by
  rcases lt_or_ge (magnitude x) quantaPerOne with hlt | hge
  · refine exists_quanta_eq_one_sub_of_lt (k := 1021) (Nat.le_add_right _ 53) ?_ ?_
    · have hhalf : quantaPerOne = 2 * (2 ^ 52 * 2 ^ 1021) := by rw [← pow_add, ← pow_succ', quantaPerOne]
      rw [hhalf] at hlo
      exact Nat.le_of_mul_le_mul_left hlo two_pos
    · have hone : 2 ^ (1021 + 53) = quantaPerOne := by rw [quantaPerOne]
      rw [hone]
      omega
  · refine exists_quanta_eq_one_sub_of_lt (k := 1022) (Nat.le_add_right _ 52) ?_ ?_
    · rw [← pow_add, ← quantaPerOne]
      exact hge
    · have hdouble : 2 ^ (1022 + 53) = 2 * quantaPerOne := by rw [quantaPerOne, ← pow_succ']
      have hpos := quantaPerOne_pos
      rw [hdouble]
      omega

/-! ### Addition and subtraction (R150, R151) -/

theorem fadd_of_isNaN (free : F64) {x y : F64} (h : isNaN x = true ∨ isNaN y = true) : fadd free x y = nanOf free := by
  simp [fadd, h]

theorem fadd_of_isInf_left (free : F64) {x y : F64} (hx : isInf x = true) (hy : isNaN y = false) :
    fadd free x y = if isInf y && signBit x != signBit y then nanOf free else x := by
  simp [fadd, hx, hy, isNaN_of_isInf hx]

theorem fadd_isInf_isFinite (free : F64) {x y : F64} (hx : isInf x = true) (hy : isFinite y = true) :
    fadd free x y = x := by
  rw [fadd_of_isInf_left free hx (not_isNaN_of_isFinite hy), not_isInf_of_isFinite hy]
  rfl

theorem fadd_isFinite_isInf (free : F64) {x y : F64} (hx : isFinite x = true) (hy : isInf y = true) :
    fadd free x y = y := by
  simp [fadd, hy, isNaN_of_isInf hy, not_isNaN_of_isFinite hx, not_isInf_of_isFinite hx]

theorem fadd_isInf_isInf_same (free : F64) {x y : F64} (hx : isInf x = true) (hy : isInf y = true)
    (hs : signBit x = signBit y) : fadd free x y = x := by
  rw [fadd_of_isInf_left free hx (isNaN_of_isInf hy), hs, bne_self_eq_false, Bool.and_false]
  rfl

theorem fadd_isInf_isInf_opposite (free : F64) {x y : F64} (hx : isInf x = true) (hy : isInf y = true)
    (hs : signBit x ≠ signBit y) : fadd free x y = nanOf free := by
  rw [fadd_of_isInf_left free hx (isNaN_of_isInf hy), hy, bne_iff_ne.mpr hs]
  rfl

/-- Every datum is a NaN, an infinity or finite (R146). -/
theorem isNaN_or_isInf_or_isFinite (x : F64) : isNaN x = true ∨ isInf x = true ∨ isFinite x = true := by
  rw [isFinite_eq]
  cases isNaN x <;> cases isInf x <;> simp

theorem fadd_comm (free x y : F64) : fadd free x y = fadd free y x := by
  rcases isNaN_or_isInf_or_isFinite x with hx | hx | hx
  · rw [fadd_of_isNaN free (.inl hx), fadd_of_isNaN free (.inr hx)]
  · rcases isNaN_or_isInf_or_isFinite y with hy | hy | hy
    · rw [fadd_of_isNaN free (.inr hy), fadd_of_isNaN free (.inl hy)]
    · by_cases hs : signBit x = signBit y
      · rw [eq_of_isInf hx hy hs]
      · rw [fadd_isInf_isInf_opposite free hx hy hs, fadd_isInf_isInf_opposite free hy hx (Ne.symm hs)]
    · rw [fadd_isInf_isFinite free hx hy, fadd_isFinite_isInf free hy hx]
  · rcases isNaN_or_isInf_or_isFinite y with hy | hy | hy
    · rw [fadd_of_isNaN free (.inr hy), fadd_of_isNaN free (.inl hy)]
    · rw [fadd_isFinite_isInf free hx hy, fadd_isInf_isFinite free hy hx]
    · rw [fadd_finite hx hy, fadd_finite hy hx, Int.add_comm, Bool.and_comm]

theorem value_add_eq_zero_iff (x y : F64) : value x + value y = 0 ↔ quanta x + quanta y = 0 := by
  rw [value_eq_quanta, value_eq_quanta, ← add_div, div_eq_zero_iff, or_iff_left cast_quantaPerOne_pos.ne',
    ← Int.cast_add, Int.cast_eq_zero]

/-- Two negative data of sum zero are both -0.0. -/
theorem both_negZero_iff {x y : F64} (h : quanta x + quanta y = 0) :
    signBit x = true ∧ signBit y = true ↔ x = 0x8000000000000000 ∧ y = 0x8000000000000000 := by
  constructor
  · rintro ⟨hx, hy⟩
    rw [quanta_eq_signOf, quanta_eq_signOf y, hx, hy, signOf_true] at h
    have hmx : magnitude x = 0 := by omega
    have hmy : magnitude y = 0 := by omega
    exact ⟨(eq_negZero_iff x).mpr ⟨isZero_of_magnitude_eq_zero hmx, hx⟩,
      (eq_negZero_iff y).mpr ⟨isZero_of_magnitude_eq_zero hmy, hy⟩⟩
  · rintro ⟨rfl, rfl⟩
    decide

theorem fadd_of_sum_zero (free : F64) {x y : F64} (hx : isFinite x = true) (hy : isFinite y = true)
    (h : value x + value y = 0) : fadd free x y =
      if x = 0x8000000000000000 ∧ y = 0x8000000000000000 then 0x8000000000000000 else 0x0000000000000000 := by
  have hq := (value_add_eq_zero_iff x y).mp h
  rw [fadd_finite hx hy, if_pos hq]
  simp only [← both_negZero_iff hq]
  cases signBit x <;> cases signBit y <;> rfl

/-- Settles O22: assembled from the cases above. -/
theorem additionMeetsItsRule : Obligations.AdditionMeetsItsRule := by
  intro free x y
  refine ⟨fun h => ?_, fun hx hy _ => isRounded_fadd hx hy free, fadd_of_sum_zero free, fun hx hzx hzy => ?_,
    fadd_isInf_isFinite free, fadd_isInf_isInf_same free, fun hx hy hs => ?_, fadd_comm free x y⟩
  · rw [fadd_of_isNaN free h]
    exact isNaN_nanOf free
  · have hne : x ≠ 0x8000000000000000 := fun h => by simp [((eq_negZero_iff x).mp h).1] at hzx
    exact fadd_zero_right hx hne hzy free
  · rw [fadd_isInf_isInf_opposite free hx hy hs]
    exact isNaN_nanOf free

theorem value_fneg (x : F64) : value (fneg x) = -value x := by
  rw [value_eq_quanta, value_eq_quanta, quanta_fneg, Int.cast_neg, neg_div]

/-- Between 1/2 and 2 nothing of `1.0 - w` is rounded (R151). -/
theorem fsub_one_exact (free : F64) {w : F64} (hw : isFinite w = true) (hlo : 1 / 2 ≤ value w) (hhi : value w ≤ 2) :
    isFinite (fsub free onePointZero w) = true ∧ value (fsub free onePointZero w) = 1 - value w := by
  have hq := cast_quantaPerOne_pos
  have hround := isRounded_fadd (x := onePointZero) (by decide) ((isFinite_fneg w).trans hw) free
  rw [value_onePointZero, value_fneg, ← sub_eq_add_neg] at hround
  have hquanta : quanta w = magnitude w := by
    have hpos : 0 < value w := lt_of_lt_of_le (by norm_num) hlo
    rw [value_eq_quanta, div_pos_iff_of_pos_right hq, Int.cast_pos] at hpos
    have habs := natAbs_quanta w
    omega
  have hval : value w = magnitude w / quantaPerOne := by rw [value_eq_quanta, hquanta, Int.cast_natCast]
  rw [hval, div_le_div_iff₀ two_pos hq] at hlo
  rw [hval, div_le_iff₀ hq] at hhi
  rw [one_mul, mul_comm] at hlo
  obtain ⟨y, hy, hyq⟩ := exists_quanta_eq_one_sub (x := w) (by exact_mod_cast hlo) (by exact_mod_cast hhi)
  refine hround.value_eq hy ?_
  rw [value_eq_quanta, hyq, hval, one_sub_div hq.ne']
  push_cast
  rfl

/-- Settles O23: the listed cases are sums of given data, and the difference from 1.0 is a datum. -/
theorem subtractionMeetsItsRule : Obligations.SubtractionMeetsItsRule := by
  refine ⟨fun _ _ _ => rfl, fun free => ⟨?_, ?_, ?_, ?_, fun w => isNaN_fsub_right free onePointZero,
    fun w => fsub_one_exact free⟩⟩
  · have hsum : value onePointZero + value (fneg onePointZero) = 0 := by rw [value_fneg, add_neg_cancel]
    rw [fsub, fadd_of_sum_zero free (by decide) (by decide) hsum]
    decide
  · exact fadd_zero_right (by decide) (by decide) (by decide) free
  · exact fadd_zero_right (by decide) (by decide) (by decide) free
  · exact fadd_isFinite_isInf free (by decide) (by decide)

end Sys2Proof.Machine
end

section
/-! PROOFS. Products, quotients and comparisons (spec 42_numerics.md R152, R153, R155) on every kind of operand. -/

namespace Sys2Proof.Machine

/-! ### Multiplication (R152) -/

theorem fmul_of_isNaN (free : F64) {x y : F64} (h : isNaN x = true ∨ isNaN y = true) : fmul free x y = nanOf free := by
  simp [fmul, h]

theorem fmul_of_isInf_left (free : F64) {x y : F64} (hx : isInf x = true) (hy : isNaN y = false) :
    fmul free x y = if isZero y then nanOf free else infinity (signBit x != signBit y) := by
  simp [fmul, hx, hy, isNaN_of_isInf hx, isZero_of_isInf hx]

theorem fmul_of_isZero (free : F64) {x y : F64} (hx : isFinite x = true) (hy : isFinite y = true)
    (h : isZero x = true ∨ isZero y = true) : fmul free x y = packF64 (signBit x != signBit y) 0 := by
  have hmag : magnitude x * magnitude y = 0 := by
    rcases h with h | h <;> simp [magnitude_eq_zero_of_isZero h]
  rw [fmul_finite hx hy, hmag, roundLow_zero quantaPerOne_pos]

theorem fmul_comm (free x y : F64) : fmul free x y = fmul free y x := by
  simp only [fmul, Bool.or_comm (isNaN x), Bool.or_comm (isInf x), Bool.or_comm (isZero x), bne_comm (a := signBit x),
    Nat.mul_comm (magnitude x)]

/-- A product with 1.0 has the left operand's sign and its magnitude, which is its own rounding. -/
theorem fmul_onePointZero (free : F64) {x : F64} (hx : isNaN x = false) : fmul free x onePointZero = x := by
  have hsign : (signBit x != signBit onePointZero) = signBit x := Bool.bne_false _
  cases hinf : isInf x
  · have hfin : isFinite x = true := (isFinite_iff x).mpr ⟨hx, hinf⟩
    rw [fmul_finite hfin (by decide), hsign, magnitude_onePointZero, roundLow_magnitude hfin quantaPerOne_pos,
      packF64_self]
  · have hone : isZero onePointZero = false := by decide
    rw [fmul_of_isInf_left free hinf (by decide), hone, hsign, infinity_signBit hinf]
    rfl

theorem signBit_i2f (n : Word) : signBit (i2f n) = decide (n.toInt < 0) := signBit_ofInteger (natAbs_toInt_lt n)

/-- An integer times +0.0 is the zero of its sign. -/
theorem fmul_i2f_zero (free : F64) (n : Word) : fmul free (i2f n) 0x0000000000000000 =
    if n.toInt < 0 then 0x8000000000000000 else 0x0000000000000000 := by
  have hsign : signBit 0x0000000000000000 = false := by decide
  rw [fmul_of_isZero free (isFinite_i2f n) (by decide) (.inr (by decide)), hsign, Bool.bne_false, signBit_i2f]
  split
  · next h => rw [decide_eq_true h]; rfl
  · next h => rw [decide_eq_false h]; rfl

/-- Settles O24: assembled from the cases above. -/
theorem multiplicationMeetsItsRule : Obligations.MultiplicationMeetsItsRule := by
  intro free x y
  refine ⟨fun h => ?_, fmul_of_isZero free, fun hx hy _ _ => isRounded_fmul hx hy free, fun hx hy hz => ?_,
    fun hx hz => ?_, fmul_onePointZero free, fmul_i2f_zero free, fmul_comm free x y⟩
  · rw [fmul_of_isNaN free h]
    exact isNaN_nanOf free
  · rw [fmul_of_isInf_left free hx hy, hz]
    rfl
  · rw [fmul_of_isInf_left free hx (not_isNaN_of_isFinite (isFinite_of_isZero hz)), if_pos hz]
    exact isNaN_nanOf free

/-! ### Division (R153) -/

theorem fdiv_of_isNaN (free : F64) {x y : F64} (h : isNaN x = true ∨ isNaN y = true) : fdiv free x y = nanOf free := by
  simp [fdiv, h]

theorem fdiv_of_isInf_left (free : F64) {x y : F64} (hx : isInf x = true) (hy : isNaN y = false) :
    fdiv free x y = if isInf y then nanOf free else infinity (signBit x != signBit y) := by
  simp [fdiv, hx, hy, isNaN_of_isInf hx]

theorem fdiv_isFinite_isInf (free : F64) {x y : F64} (hx : isFinite x = true) (hy : isInf y = true) :
    fdiv free x y = packF64 (signBit x != signBit y) 0 := by
  simp [fdiv, hy, isNaN_of_isInf hy, not_isNaN_of_isFinite hx, not_isInf_of_isFinite hx]

theorem fdiv_of_isZero_right (free : F64) {x y : F64} (hx : isFinite x = true) (hy : isZero y = true) :
    fdiv free x y = if isZero x then nanOf free else infinity (signBit x != signBit y) := by
  have hyf := isFinite_of_isZero hy
  simp [fdiv, hy, not_isNaN_of_isFinite hx, not_isInf_of_isFinite hx, not_isNaN_of_isFinite hyf,
    not_isInf_of_isFinite hyf]

theorem magnitude_pos {x : F64} (h : isZero x = false) : 0 < magnitude x :=
  Nat.pos_of_ne_zero fun h0 => by simp [isZero_of_magnitude_eq_zero h0] at h

theorem fdiv_of_isZero_left (free : F64) {x y : F64} (hx : isZero x = true) (hy : isFinite y = true)
    (hz : isZero y = false) : fdiv free x y = packF64 (signBit x != signBit y) 0 := by
  rw [fdiv_finite (isFinite_of_isZero hx) hy free hz, magnitude_eq_zero_of_isZero hx, Nat.zero_mul,
    roundLow_zero (magnitude_pos hz)]

/-- Settles O25: assembled from the cases above. -/
theorem divisionMeetsItsRule : Obligations.DivisionMeetsItsRule := by
  intro free x y
  refine ⟨fun h => ?_, fdiv_of_isZero_left free, fun hx _ hy hz => isRounded_fdiv hx hy hz free,
    fun hx hzx hzy => ?_, fun hzx hzy => ?_, fun hx hy => ?_, fun hx hy => ?_, fun hx hy => ?_⟩
  · rw [fdiv_of_isNaN free h]
    exact isNaN_nanOf free
  · rw [fdiv_of_isZero_right free hx hzy, hzx]
    rfl
  · rw [fdiv_of_isZero_right free (isFinite_of_isZero hzx) hzy, if_pos hzx]
    exact isNaN_nanOf free
  · rw [fdiv_of_isInf_left free hx (isNaN_of_isInf hy), if_pos hy]
    exact isNaN_nanOf free
  · rw [fdiv_of_isInf_left free hx (not_isNaN_of_isFinite hy), not_isInf_of_isFinite hy]
    exact isInf_infinity _
  · rw [fdiv_isFinite_isInf free hx hy]
    exact isZero_packF64_zero _

/-! ### Equality (R155) -/

theorem feq_of_isNaN {x y : F64} (h : isNaN x = true ∨ isNaN y = true) : feq x y = false := by
  rcases h with h | h <;> simp [feq, h]

theorem feq_iff {x y : F64} (hx : isNaN x = false) (hy : isNaN y = false) :
    feq x y = true ↔ x = y ∨ (isZero x = true ∧ isZero y = true) := by
  simp [feq, hx, hy]

theorem feq_isFinite_iff {x y : F64} (hx : isFinite x = true) (hy : isFinite y = true) :
    feq x y = true ↔ value x = value y := by
  rw [feq_iff (not_isNaN_of_isFinite hx) (not_isNaN_of_isFinite hy), value_eq_value_iff, quanta_eq_quanta_iff hx hy]

theorem feq_isInf_iff {x y : F64} (hx : isNaN x = false) (hy : isInf y = true) : feq x y = true ↔ x = y := by
  simp [feq_iff hx (isNaN_of_isInf hy), isZero_of_isInf hy]

theorem feq_comm (x y : F64) : feq x y = feq y x := by
  simp only [feq, Bool.and_comm (!isNaN x), Bool.beq_comm (a := x), Bool.and_comm (isZero x)]

theorem feq_isFinite_isInf {x y : F64} (hx : isFinite x = true) (hy : isInf y = true) : feq x y = false := by
  rw [Bool.eq_false_iff, Ne, feq_isInf_iff (not_isNaN_of_isFinite hx) hy]
  rintro rfl
  simp [isFinite_of_isInf hy] at hx

/-- Settles O26: assembled from the cases above. -/
theorem equalityMeetsItsRule : Obligations.EqualityMeetsItsRule := by
  refine ⟨fun x y => ⟨feq_of_isNaN, feq_isFinite_iff, fun hx => feq_isInf_iff (isNaN_of_isInf hx), fun hx hy => ?_⟩,
    feq_zeroPointZero_iff⟩
  have hfalse := feq_isFinite_isInf hx hy
  exact ⟨hfalse, feq_comm x y ▸ hfalse⟩

end Sys2Proof.Machine
end

section
/-! PROOFS. Conversions and the sine (spec 42_numerics.md R156, R157, R158, R160). -/

namespace Sys2Proof.Machine

/-! ### Conversions (R156, R157, R158) -/

/-- The datum of 0 is +0.0. -/
theorem ofInteger_zero : ofInteger 0 = 0x0000000000000000 := by
  rw [ofInteger, Int.natAbs_zero, Nat.zero_mul, roundLow_zero Nat.one_pos]
  rfl

/-- Settles O27: 32 bits fit the 53 of a significand. -/
theorem integerConversionsExact : Obligations.IntegerConversionsExact :=
  ⟨fun n => ⟨isFinite_i2f n, value_i2f n⟩, fun n => ⟨isFinite_u2f n, value_u2f n⟩, ofInteger_zero, ofInteger_zero⟩

/-- Settles O28: the range test in quanta is the one in values. -/
theorem narrowingMeetsItsRule : Obligations.NarrowingMeetsItsRule := by
  intro draw v
  refine ⟨toInt_f2i draw, fun hout => f2i_of_not_narrowable draw ?_⟩
  rw [Bool.eq_false_iff, Ne, narrowable_iff]
  rintro ⟨hfin, hlo, hhi⟩
  rcases hout with hinf | hlow | hhigh
  · simp [hinf] at hfin
  · exact hlow.not_gt hlo
  · exact hhigh.not_gt hhi

/-! ### The sine (R160) -/

section Lawful
variable (raw : F64 → F64) {x : F64}

theorem lawfulSin_of_isZero (h : isZero x = true) : lawfulSin raw x = x := by
  rw [lawfulSin, if_pos (isFinite_of_isZero h), if_pos h]

theorem lawfulSin_of_isFinite (hx : isFinite x = true) (hz : isZero x = false) :
    lawfulSin raw x = clampToUnit (raw x) := by
  rw [lawfulSin, if_pos hx, if_neg (by rw [hz]; decide)]

theorem lawfulSin_of_not_isFinite (h : isFinite x = false) : lawfulSin raw x = nanOf (raw x) := by
  rw [lawfulSin, h]
  rfl

/-- SIN-RANGE of every function of the model's form. -/
theorem lawfulSin_bounds (hx : isFinite x = true) :
    isFinite (lawfulSin raw x) = true ∧ |value (lawfulSin raw x)| ≤ 1 := by
  cases hz : isZero x
  · rw [lawfulSin_of_isFinite raw hx hz]
    exact clampToUnit_bounds _
  · rw [lawfulSin_of_isZero raw hz, value_of_isZero hz, abs_zero]
    exact ⟨hx, zero_le_one⟩

end Lawful

/-- Every function of the model's form has the named properties. -/
theorem sinLawful_lawfulSin (raw : F64 → F64) : SinLawful (lawfulSin raw) := by
  refine ⟨fun x hx => ?_, lawfulSin_of_isZero raw (by decide), lawfulSin_of_isZero raw (by decide), fun x hx => ?_⟩
  · obtain ⟨hfin, habs⟩ := lawfulSin_bounds raw hx
    exact ⟨hfin, abs_le.mp habs⟩
  · rw [lawfulSin_of_not_isFinite raw hx]
    exact isNaN_nanOf _

/-- Settles O29: the model's sine has the model's form. -/
theorem sineHasNamedProperties : Obligations.SineHasNamedProperties := sinLawful_lawfulSin Config.rawSin

/-- Below its sign bit a pattern holds its exponent and its fraction. -/
theorem toNat_mod_eq_fields (x : F64) : x.toNat % 2 ^ 63 = expField x * 2 ^ 52 + fracField x := by
  rw [expField_eq, fracField_eq]
  omega

/-- A datum in [-1, 1] is not clamped: its low 63 bits are at most those of 1.0, for they are the roundings of the
magnitudes. -/
theorem clampToUnit_of_abs_value_le {v : F64} (hv : isFinite v = true) (h : |value v| ≤ 1) : clampToUnit v = v := by
  rw [abs_value, div_le_one cast_quantaPerOne_pos, Nat.cast_le, ← magnitude_onePointZero] at h
  have hround := roundLow_mono (d := 1) h
  rw [roundLow_magnitude_one hv, roundLow_magnitude_one (by decide)] at hround
  have hone : expField onePointZero * 2 ^ 52 + fracField onePointZero = 0x3FF0000000000000 := by decide
  rw [hone, ← toNat_mod_eq_fields] at hround
  exact if_pos hround

/-- A function that has the named properties already is kept as it is. -/
theorem SinLawful.lawfulSin_eq {f : F64 → F64} (h : SinLawful f) : lawfulSin f = f := by
  obtain ⟨hrange, hzero, hnegZero, hnan⟩ := h
  funext x
  cases hx : isFinite x
  · rw [lawfulSin_of_not_isFinite f hx, nanOf_of_isNaN (hnan x hx)]
  · cases hz : isZero x
    · obtain ⟨hfin, hle⟩ := hrange x hx
      rw [lawfulSin_of_isFinite f hx hz, clampToUnit_of_abs_value_le hfin (abs_le.mpr hle)]
    · rw [lawfulSin_of_isZero f hz]
      rcases (isZero_iff x).mp hz with rfl | rfl
      · exact hzero.symm
      · exact hnegZero.symm

/-- Settles O30: a lawful function is its own raw function. -/
theorem sineModelIsExactlyTheLawfulOnes : Obligations.SineModelIsExactlyTheLawfulOnes := by
  intro f
  constructor
  · exact fun h => ⟨f, h.lawfulSin_eq⟩
  · rintro ⟨raw, rfl⟩
    exact sinLawful_lawfulSin raw

end Sys2Proof.Machine
end

section
/-! PROOFS. Exceptions (spec 60_exceptions.md): every command completes, a block with nothing presented holds its
registers, and a host in contract sees no draw. -/

namespace Sys2Proof.Machine

/-! ### Completion and idling (R180, R192, R194) -/

/-- Settles O16: each of the five meanings is a next state. -/
theorem everyCommandCompletes : Obligations.EveryCommandCompletes := by
  intro i s
  cases i with
  | proc x => exact ⟨_, exec_proc s x⟩
  | cfgl f w => exact ⟨_, exec_cfgl s f w⟩
  | cfgSd f w r => exact ⟨_, exec_cfgSd s f r w⟩
  | cfgSc f w r => exact ⟨_, exec_cfgSc s f r w⟩
  | cfgSq f w r => exact ⟨_, exec_cfgSq s f r w⟩

theorem step_of_pending_nil {s : State} (hp : s.pending = []) : step s = .next s := by
  rw [step, hp]

/-- A transaction with neither a reset nor a command is taken from the queue, and that is all. -/
theorem step_of_nothing {s : State} {rest : List Transaction} (hp : s.pending = ⟨false, none⟩ :: rest) :
    step s = .next (s.take rest) := by
  rw [step, hp]
  rfl

/-- Settles O15: the two steps that present no command and no reset. -/
theorem idleHoldsRegisters : Obligations.IdleHoldsRegisters :=
  ⟨fun _ => step_of_pending_nil, fun _ _ => step_of_nothing⟩

/-! ### Another number of the next draw (R9, log entry 3) -/

/-- The state with another number of the next draw. -/
def State.withDraws (s : State) (n : Nat) : State := { s with draws := n }

/-! ### The configures in contract (R97, R181 rows X1 to X3) -/

/-- The contract of the state speaks of four registers alone. -/
theorem StateInContract.of_same {s t : State} (h : StateInContract s) (hwt : t.wt = s.wt) (hwi : t.wi = s.wi)
    (hdf : t.df = s.df) (hphf : t.phf = s.phf) : StateInContract t := by
  obtain ⟨hunit, hagree, hdelta, hphase⟩ := h
  rw [StateInContract, hwt, hdf, hphf]
  exact ⟨hunit, hagree.of_same hwt hwi, hdelta, hphase⟩

section Configure
variable {s : State} {w : F64} (hw : UnitWeight w) (kind : Waveform)
include hw

/-- A weight in contract keeps the contract (R94). -/
theorem StateInContract.setMix (h : StateInContract s) : StateInContract (s.setMix kind w) := by
  obtain ⟨-, -, hdelta, hphase⟩ := h
  exact ⟨hw, weightsAgree_of_fsub rfl, hdelta, hphase⟩

/-- The complement of a weight in contract is no NaN, so that no draw shows in it (R148). -/
theorem State.setMix_withDraws (n : Nat) : (s.withDraws n).setMix kind w = (s.setMix kind w).withDraws n := by
  have hwi := fsub_one_free (not_isNaN_of_isFinite hw.1) (Config.drawNaN .inputWeight n) (s.drawNaN .inputWeight)
  simp only [State.setMix, State.withDraws, State.drawNaN_eq, hwi]

end Configure

/-- A delta that `CFG.SC` can give keeps the contract (R92). -/
theorem StateInContract.setDf {s : State} (h : StateInContract s) {r : Word} (hr : r ≠ 0)
    (draw free free' : F64) (f : Word) : StateInContract (s.setDf (floatDelta draw free free' f r)) := by
  obtain ⟨hunit, hagree, -, hphase⟩ := h
  obtain ⟨hfin, hsign, hle, -⟩ := floatDeltaRange draw free free' f r hr
  refine ⟨hunit, hagree.of_same rfl rfl, ⟨hfin, ?_, hle⟩, hphase⟩
  rw [State.setDf_df, value_eq_signOf, hsign, signOf_false, Int.cast_one, one_mul]
  positivity

/-! ### The phase stops at 2^88 (R114, R181 rows X5 and X8) -/

/-- The datum 2^88. -/
def phaseBound : F64 := 0x4570000000000000

/-- A step above every delta of `CFG.SC` that is less than half the spacing at 2^88. -/
def stalledStep : F64 := 0x421A000000000000

theorem value_phaseBound : value phaseBound = 2 ^ 88 := by decide +kernel

theorem largestDelta_lt_stalledStep : value largestDelta < value stalledStep := by decide +kernel

/-- At 2^88 the phase has stopped. -/
theorem isRounded_phaseBound : IsRounded (2 ^ 88 + value stalledStep) phaseBound := by
  have hx : isFinite phaseBound = true := by decide
  have hy : isFinite stalledStep = true := by decide
  have hround := isRounded_fadd hx hy 0
  rwa [continuousPhaseStops 0 _ _ hx hy (by decide) (by decide) (by decide +kernel), value_phaseBound] at hround

/-- Rounding is monotone (R147): were the roundings the other way round, each exact number would lie nearer to the
other one's. A number that is not negative has no negative rounding, since 0 is nearer. -/
theorem IsRounded.mono {r r' : ℚ} {x x' : F64} (h : IsRounded r x) (h' : IsRounded r' x')
    (hx' : isFinite x' = true) (hr : 0 ≤ r) (hlt : r < r') :
    isFinite x = true ∧ 0 ≤ value x ∧ value x ≤ value x' := by
  have hoverflow' : |r'| < 2 ^ 1024 - 2 ^ 970 := by
    refine lt_of_not_ge fun hge => ?_
    rw [IsRounded, if_pos hge] at h'
    rw [h', isFinite_of_isInf (isInf_infinity _)] at hx'
    cases hx'
  have hoverflow : |r| < 2 ^ 1024 - 2 ^ 970 :=
    calc |r| = r := abs_of_nonneg hr
      _ < |r'| := hlt.trans_le (le_abs_self r')
      _ < _ := hoverflow'
  rw [IsRounded, if_neg hoverflow.not_ge] at h
  rw [IsRounded, if_neg hoverflow'.not_ge] at h'
  obtain ⟨hfin, hnearest, -⟩ := h
  obtain ⟨-, hnearest', -⟩ := h'
  have hzero := hnearest 0x0000000000000000 (by decide)
  rw [value_zero, sub_zero, abs_of_nonneg hr] at hzero
  refine ⟨hfin, ?_, ?_⟩
  · by_contra hneg
    linarith [le_abs_self (r - value x)]
  · by_contra hgt
    have hmid := sq_le_sq.mpr (hnearest x' hx')
    have hmid' := sq_le_sq.mpr (hnearest' x hfin)
    linarith [mul_pos (sub_pos.mpr hlt) (sub_pos.mpr (not_le.mp hgt))]

/-- A phase up to 2^88 that advances by a delta in contract stays up to 2^88. -/
theorem StateInContract.advance_bounds {s : State} (h : StateInContract s) (free : F64) :
    isFinite (fadd free s.phf s.df) = true ∧ 0 ≤ value (fadd free s.phf s.df) ∧
      value (fadd free s.phf s.df) ≤ 2 ^ 88 := by
  obtain ⟨-, -, ⟨hdfin, hdlo, hdhi⟩, hpfin, hplo, hphi⟩ := h
  have hlt : value s.phf + value s.df < 2 ^ 88 + value stalledStep :=
    add_lt_add_of_le_of_lt hphi (hdhi.trans_lt largestDelta_lt_stalledStep)
  rw [← value_phaseBound]
  exact (isRounded_fadd hpfin hdfin free).mono isRounded_phaseBound (by decide) (add_nonneg hplo hdlo) hlt

/-! ### The sample in contract (R119, R181 rows X4 to X8) -/

/-- A sample keeps `PHF` or advances it by `DF` (R112, R114). -/
theorem State.process_phf (s : State) (x : Word) :
    (s.process x).phf = s.phf ∨ ∃ free, (s.process x).phf = fadd free s.phf s.df := by
  cases hb : s.bypass
  · rw [s.process_of_not_bypass x hb]
    rcases s.synthesize_state with ⟨-, h⟩ | ⟨-, h⟩ | ⟨-, h⟩ <;> rw [h]
    · exact .inl rfl
    · exact .inr ⟨_, rfl⟩
    · exact .inl rfl
  · exact .inl (by rw [s.process_of_bypass x hb, State.respond_phf])

section Sample
variable {s : State} (h : StateInContract s)
include h

/-- A sample moves of the contract's registers at most `PHF`, and that within its bounds. -/
theorem StateInContract.process (x : Word) : StateInContract (s.process x) := by
  obtain ⟨-, hdf, hwt, hwi, -⟩ := s.process_keeps x
  rcases s.process_phf x with hphf | ⟨free, hphf⟩
  · exact h.of_same hwt hwi hdf hphf
  · have hphase := h.advance_bounds free
    obtain ⟨hunit, hagree, hdelta, -⟩ := h
    rw [StateInContract, hwt, hdf, hphf]
    exact ⟨hunit, hagree.of_same hwt hwi, hdelta, hphase⟩

/-- The tone of a finite phase is in range and the advance of that phase is no NaN (R114, R160). -/
theorem StateInContract.synthesize_withDraws (n : Nat) :
    (s.withDraws n).synthesize = (s.synthesize.1, s.synthesize.2.withDraws n) := by
  obtain ⟨-, -, ⟨hdf, -⟩, hphf, -⟩ := h
  cases hk : s.kind with
  | sd =>
    rw [s.synthesize_sd hk, State.synthesize_sd (s.withDraws n) hk]
    rfl
  | sc =>
    obtain ⟨_, tone, -, -, -, -, htone⟩ := continuousToneInRange s.phf hphf
    have hphase := fadd_free hphf hdf (Config.drawNaN .phaseFloat n) (s.drawNaN .phaseFloat)
    rw [s.synthesize_sc hk, State.synthesize_sc (s.withDraws n) hk]
    simp only [State.synthSc, State.advancePhf, State.withDraws, State.drawNaN_eq, htone, hphase]
  | sq =>
    rw [s.synthesize_sq hk, State.synthesize_sq (s.withDraws n) hk]
    rfl

/-- The products of the mix are finite, so that neither they nor their sum is a NaN (R116, R148). -/
theorem StateInContract.mixSum_withDraws (n : Nat) (tone x : Word) :
    (s.withDraws n).mixSum tone x = s.mixSum tone x := by
  obtain ⟨⟨hwt, hwtlo, hwthi⟩, hagree, -⟩ := h
  obtain ⟨hwi, hwilo, hsum⟩ := hagree.bounds ⟨hwt, hwtlo, hwthi⟩
  have hwihi : value s.wi ≤ 2 := by linarith [(abs_le.mp hsum).2]
  have hinput := fmul_free (isFinite_i2f x) hwi (Config.drawNaN .inputProduct n) (s.drawNaN .inputProduct)
  have hshare := fmul_free (isFinite_i2f tone) hwt (Config.drawNaN .toneShare n) (s.drawNaN .toneShare)
  simp only [State.mixSum, State.withDraws, State.drawNaN_eq, hinput, hshare]
  exact fadd_free (fmul_i2f_near x hwi hwilo hwihi _).1 (fmul_i2f_near tone hwt hwtlo (by linarith) _).1 _ _

/-- The sum of the mix is in range and is truncated (R120, R158). -/
theorem StateInContract.mix_withDraws (n : Nat) (tone x : Word) : (s.withDraws n).mix tone x = s.mix tone x := by
  have hsame := h.mixSum_withDraws n tone x
  obtain ⟨hunit, hagree, -⟩ := h
  have hrange := (narrowable_iff _).mpr (State.mixSum_in_range hunit hagree tone x)
  rw [State.mix, State.mix, hsame, f2i_of_narrowable _ hrange, f2i_of_narrowable _ hrange]

/-- No draw shows in a sample in contract (R120, R215). -/
theorem StateInContract.process_withDraws (n : Nat) (x : Word) :
    (s.withDraws n).process x = (s.process x).withDraws n := by
  cases hb : s.bypass
  · rw [s.process_of_not_bypass x hb, State.process_of_not_bypass (s.withDraws n) x hb, h.synthesize_withDraws,
      h.mix_withDraws]
    rfl
  · rw [s.process_of_bypass x hb, State.process_of_bypass (s.withDraws n) x hb]
    rfl

end Sample

/-! ### The step in contract (R181, R215) -/

/-- At a rate above 0 the integer delta is no draw (R97). -/
theorem integerDelta_draw {r : Word} (hr : r ≠ 0) (draw draw' : Byte) (f : Word) :
    integerDelta draw f r = integerDelta draw' f r :=
  (integerDelta_of_ne hr draw f).trans (integerDelta_of_ne hr draw' f).symm

/-- An instruction in contract keeps the contract, and no draw shows in it. -/
theorem exec_inContract {i : Instr} {s : State} (hi : InstrInContract i) (h : StateInContract s) :
    ∃ t, exec i s = .next t ∧ StateInContract t ∧ ∀ n, exec i (s.withDraws n) = .next (t.withDraws n) := by
  cases i with
  | proc x =>
    refine ⟨_, exec_proc s x, h.process x, fun n => ?_⟩
    rw [exec_proc, h.process_withDraws]
  | cfgl f w =>
    refine ⟨_, exec_cfgl s f w, (h.setMix hi .sd).of_same rfl rfl rfl rfl, fun n => ?_⟩
    rw [exec_cfgl, State.setMix_withDraws hi]
    rfl
  | cfgSd f w r =>
    obtain ⟨hr, hw⟩ := hi
    refine ⟨_, exec_cfgSd s f r w, (h.setMix hw .sd).of_same rfl rfl rfl rfl, fun n => ?_⟩
    rw [exec_cfgSd, State.setMix_withDraws hw, integerDelta_draw hr _ (s.drawU8 .deltaInteger)]
    rfl
  | cfgSc f w r =>
    obtain ⟨hr, hw⟩ := hi
    refine ⟨_, exec_cfgSc s f r w, (h.setMix hw .sc).setDf hr _ _ _ f, fun n => ?_⟩
    rw [exec_cfgSc, State.setMix_withDraws hw, floatDelta_eq hr, floatDelta_eq hr]
    rfl
  | cfgSq f w r =>
    obtain ⟨hr, hw⟩ := hi
    refine ⟨_, exec_cfgSq s f r w, (h.setMix hw .sq).of_same rfl rfl rfl rfl, fun n => ?_⟩
    rw [exec_cfgSq, State.setMix_withDraws hw, integerDelta_draw hr _ (s.drawU8 .deltaInteger)]
    rfl

/-- A reset leads to the reset block, and every other step is one of an instruction or of nothing. -/
theorem step_inContract {s : State} (n : Nat) (hreset : s.wasReset = true) (h : StateInContract s)
    (htr : ∀ tr ∈ s.pending.head?, TransactionInContract tr) :
    ∃ t, step s = .next t ∧ StateInContract t ∧ t.wasReset = true ∧
      ∃ m, step (s.withDraws n) = .next (t.withDraws m) := by
  cases hp : s.pending with
  | nil => exact ⟨s, step_of_pending_nil hp, h, hreset, n, step_of_pending_nil hp⟩
  | cons tr rest =>
    obtain ⟨rst, cmd⟩ := tr
    rw [hp] at htr
    cases rst with
    | true => exact ⟨_, step_reset hp, resetInContract.of_same rfl rfl rfl rfl, rfl, n + 1, step_reset hp⟩
    | false =>
      have htaken : StateInContract (s.take rest) := h.of_same rfl rfl rfl rfl
      rcases htr _ rfl with hrst | hcmd | ⟨c, i, hcmd, hd, hi⟩
      · cases hrst
      · cases hcmd
        exact ⟨_, step_of_nothing hp, htaken, hreset, n + 1, step_of_nothing hp⟩
      · cases hcmd
        obtain ⟨t, ht, hkept, hdraws⟩ := exec_inContract hi htaken
        obtain ⟨-, hlatch, -⟩ := exec_keeps _ ht
        have hstep := stepRunsDecodedInstruction s c rest i hreset hp hd
        have hstep' := stepRunsDecodedInstruction (s.withDraws n) c rest i hreset hp hd
        exact ⟨t, hstep.trans ht, hkept, hlatch.trans hreset, n + 1, hstep'.trans (hdraws (n + 1))⟩

/-- Settles O56: the step from a state in contract, with the number of the next draw replaced. -/
theorem contractKeptAndNoDrawShows : Obligations.ContractKeptAndNoDrawShows :=
  fun _ n => step_inContract n

end Sys2Proof.Machine
end

section
/-! PROOFS. Reset and hazards (spec 70_reset_and_hazards.md): a reset wins over a command beside it, a command before
the first reset is refused, and a run in contract from reset on shows no draw. -/

namespace Sys2Proof.Machine

/-! ### The reset event (R210, R211, R212) -/

/-- Settles O11: the state that the reset event leaves, field by field. -/
theorem resetTakesPrecedence : Obligations.ResetTakesPrecedence :=
  fun _ _ _ hp => step_reset hp

/-- Settles O14: the command port asks for a reset before it decodes. -/
theorem commandBeforeResetRefused : Obligations.CommandBeforeResetRefused := by
  intro s c rest hw hp
  rw [step_command hp]
  simp [runCommand, hw]

/-! ### A host in contract from reset on (R181, R215) -/

/-- A step takes at most the first transaction from the queue (R60). -/
theorem step_pending {s t : State} (h : step s = .next t) : t.pending = s.pending.tail := by
  rcases step_cases s h with
    ⟨hp, rfl⟩ | ⟨tr, rest, hp, -, rfl⟩ | ⟨rest, hp, rfl⟩ | ⟨c, rest, i, hp, -, -, he⟩
  · rw [hp, List.tail_nil]
  · rw [hp]
    rfl
  · rw [hp]
    rfl
  · obtain ⟨hkept, -⟩ := exec_keeps _ he
    rw [hkept, hp]
    rfl

/-- A run in contract completes, and with another number of the first draw it differs in the number of the next
draw alone: every step keeps the contract and takes its transaction off a queue in contract. -/
theorem core_run_inContract (k : Nat) {s : State} (n : Nat) (hreset : s.wasReset = true) (h : StateInContract s)
    (htr : ∀ tr ∈ s.pending, TransactionInContract tr) :
    ∃ t m, Host.Core.run core k s = .next t ∧ Host.Core.run core k (s.withDraws n) = .next (t.withDraws m) := by
  induction k generalizing s n with
  | zero => exact ⟨s, n, rfl, rfl⟩
  | succ k ih =>
    obtain ⟨u, hu, hkept, hlatch, m, hdraws⟩ :=
      step_inContract n hreset h fun tr hhead => htr tr (List.mem_of_mem_head? hhead)
    have hqueue : ∀ tr ∈ u.pending, TransactionInContract tr := fun tr hmem =>
      htr tr (List.mem_of_mem_tail (step_pending hu ▸ hmem))
    rw [core_run_of_step hu, core_run_of_step hdraws]
    exact ih m hlatch hkept hqueue

/-- Settles O58: the reset state is in contract, and a number of the next draw is no output and no register. -/
theorem contractRunsAreSpecified : Obligations.ContractRunsAreSpecified := by
  intro pending n k htr
  have hstart : StateInContract { State.reset with pending := pending } := resetInContract.of_same rfl rfl rfl rfl
  obtain ⟨t, m, hrun, hrun'⟩ := core_run_inContract k n rfl hstart htr
  exact ⟨t, t.withDraws m, hrun, hrun', rfl, rfl, rfl, rfl, rfl, rfl, rfl, rfl, rfl⟩

end Sys2Proof.Machine
end
